-- ==== Sys2Proof/Word.lean ====
section
/-! DEFINITION. The words of the CRC8/IHEX block: the widths the spec names (R10, R11, R13, R70). -/

namespace Sys2Proof

/-- An 8-bit value: a header field, a stream byte, the CRC register. -/
abbrev Byte := BitVec 8

/-- A 16-bit value: a within-segment address (R13, R30). -/
abbrev Half := BitVec 16

/-- A 32-bit value: a header, an operand word, a response word (R39, R70, R77). -/
abbrev Word := BitVec 32

/-- A single bit as a 32-bit number, for the one-bit fields of packed words. -/
def bitWord (b : Bool) : Word := if b then 1 else 0

end Sys2Proof
end

