-- ==== Sys2Proof/Config.lean ====
section
/-! DEFINITION. The fixed parameters of the block (R8, R9) and the one parameter that
93_implementation_defined.md I3 names beside them. No value is left open: the model has no free value. -/

namespace Sys2Proof.Config

/-- The feedback mask of the generator x^8+x^2+x+1 into bits 2, 1 and 0 (R8, R100). -/
def poly : Byte := 0x07

/-- The 15-bit magic of the configuration word (R8, R121). UNVERIFIED against the source's code (I10). -/
def magic : BitVec 15 := 0x494F

/-- Bytes in a segment of the target address space (R8, R51). -/
def segment : Nat := 0x10000

/-- One past the last address of the target address space (R51, R61). -/
def addressLimit : Nat := 2 ^ 32

/-- The legal values of `columns` (R8, R141). -/
def legalColumns : List Byte := [16, 32]

/-- `CRC_INT_WIDTH`: the width of CRC_INT's operand (R8, R9, D7); any value of 24 or more gives the same results. -/
def crcIntWidth : Nat := 32

/-- Bytes of the size prefix (R8, R53). -/
def sizePrefixBytes : Nat := 4

/-- `PREFIX_PRELOAD` (I3): whether HEX_START puts the size prefix into the first record without the crossing and
capacity tests. Its normative value is false (C6, D27). -/
def prefixPreload : Bool := false

end Sys2Proof.Config
end

