-- ==== Sys2Proof/Syntax.lean ====
section
/-! DEFINITION. Commands, records and assembler lines: one constructor of `Instr` per row of spec/opcode_table.json,
the record of R13, and the command lines of R83 to R85 with the numbers as written. -/

namespace Sys2Proof

/-- The rows of spec/opcode_table.json. The first twelve are the commands of R73, each with the operands R71 gives it.
The last three are the record types of R79, which the framer emits and no host sends: as instructions they stand for
the emission of that record by the procedure of their rule, and they take no operand. -/
inductive Instr where
  | crcClr
  | crcBit (v : Bool)
  | crcInt (x : Word)
  | crcRd
  | cfgEnc (pin : Byte) (h : Bool)
  | cfgDec (word : Word)
  | hexStart (columns : Byte) (p : Bool) (base n : Word)
  | hexByte (d : Byte)
  | hexEnd
  | hexAbort
  | status
  | reset
  | recData
  | recEof
  | recEla
  deriving DecidableEq, Repr

/-- `Rec(count, addr, type, data, csum)`, one Intel HEX record (R13). -/
structure Record where
  count : Byte
  addr  : Half
  rtype : Byte
  data  : List Byte
  csum  : Byte
  deriving DecidableEq, Repr

/-- An assembler line before its operands are checked against their fields: the commands of R83 and the two
pseudo-commands of R84 and R85, every operand a number as it was written. -/
inductive AsmCmd where
  | crcClr
  | crcBit (v : Nat)
  | crcInt (x : Nat)
  | crcRd
  | cfgEnc (pin h : Nat)
  | cfgDec (word : Nat)
  | hexStart (columns p base n : Nat)
  | hexByte (d : Nat)
  | hexEnd
  | hexAbort
  | status
  | reset
  | hexEncode (columns p base : Nat) (buf : List Nat)
  | crcFeed (x w : Nat)
  deriving DecidableEq, Repr

end Sys2Proof
end

