-- ==== Sys2Proof/WellFormed.lean ====
section
/-! DEFINITION. What the types of Syntax do not already enforce: which instructions the command port carries, when a
record's fields belong together, and when an assembler line's numbers fit their fields. -/

namespace Sys2Proof

/-- `i` is a command: one of the twelve rows the command port carries (R73). The record rows are output only
(R75, R79). -/
def Instr.wellFormed : Instr → Bool
  | .recData | .recEof | .recEla => false
  | .crcClr | .crcBit _ | .crcInt _ | .crcRd | .cfgEnc _ _ | .cfgDec _ | .hexStart _ _ _ _ | .hexByte _ | .hexEnd
  | .hexAbort | .status | .reset => true

/-- A record's count is the length of its data (R13) and its type is one of the three the block emits (R79). -/
def Record.wellFormed (r : Record) : Bool :=
  r.data.length == r.count.toNat && [0x00, 0x01, 0x04].contains r.rtype

/-- Every operand fits its field (R83). CRC_FEED bounds only its number of bits, 1 to 32: it takes the low bits of an x
of any size (R85). For HEX_ENCODE the length of the buffer fits the operand n (R84). -/
def AsmCmd.wellFormed : AsmCmd → Bool
  | .crcClr | .crcRd | .hexEnd | .hexAbort | .status | .reset => true
  | .crcBit v => v < 2
  | .crcInt x => x < 2 ^ 32
  | .cfgEnc pin h => pin < 256 && h < 2
  | .cfgDec word => word < 2 ^ 32
  | .hexStart columns p base n => columns < 256 && p < 2 && base < 2 ^ 32 && n < 2 ^ 32
  | .hexByte d => d < 256
  | .hexEncode columns p base buf =>
      columns < 256 && p < 2 && base < 2 ^ 32 && buf.length < 2 ^ 32 && buf.all (· < 256)
  | .crcFeed _ w => 1 ≤ w && w ≤ 32

end Sys2Proof
end

