-- ==== Sys2Proof/Decode.lean ====
section
/-! DEFINITION. The decoder, total on every word sequence (R70 to R76), and after it the encoder, written from the
header words of R83. -/

namespace Sys2Proof

/-! ## Header fields (R70) -/

/-- H[7:0], the opcode. -/
def opField (h : Word) : Byte := h.extractLsb' 0 8

/-- H[15:8], the immediate A. -/
def fieldA (h : Word) : Byte := h.extractLsb' 8 8

/-- H[23:16], the immediate B. -/
def fieldB (h : Word) : Byte := h.extractLsb' 16 8

/-- H[31:24], reserved. -/
def fieldZ (h : Word) : Byte := h.extractLsb' 24 8

/-! ## The opcode table (R73) -/

/-- The assigned opcodes, by name. -/
inductive Op where
  | crcClr | crcBit | crcInt | crcRd | cfgEnc | cfgDec | hexStart | hexByte | hexEnd | hexAbort | status | reset
  deriving DecidableEq, Repr

/-- A command row of the opcode table: its fixed bits and where they lie. -/
structure Row where
  op    : Op
  value : Word
  mask  : Word
  deriving DecidableEq, Repr

/-- The command rows of spec/opcode_table.json, `match` and `mask` as it gives them. -/
def opTable : List Row :=
  [ ⟨.crcClr,   0x00000001, 0xFFFFFFFF⟩,
    ⟨.crcBit,   0x00000002, 0xFFFFFEFF⟩,
    ⟨.crcInt,   0x00000003, 0xFFFFFFFF⟩,
    ⟨.crcRd,    0x00000004, 0xFFFFFFFF⟩,
    ⟨.cfgEnc,   0x00000008, 0xFFFE00FF⟩,
    ⟨.cfgDec,   0x00000009, 0xFFFFFFFF⟩,
    ⟨.hexStart, 0x00000010, 0xFFFE00FF⟩,
    ⟨.hexByte,  0x00000011, 0xFFFF00FF⟩,
    ⟨.hexEnd,   0x00000012, 0xFFFFFFFF⟩,
    ⟨.hexAbort, 0x00000013, 0xFFFFFFFF⟩,
    ⟨.status,   0x00000020, 0xFFFFFFFF⟩,
    ⟨.reset,    0x0000003F, 0xFFFFFFFF⟩ ]

/-- A header selects a row iff (H & mask) = match (R74). -/
def Row.selects (r : Row) (h : Word) : Bool := h &&& r.mask == r.value

/-- The row a header selects; at most one does. -/
def selectRow (h : Word) : Option Row := opTable.find? (·.selects h)

/-- OP is in the table of R73, whatever the header's other bits are. -/
def assignedOp (op : Byte) : Bool := opTable.any fun r => opField r.value == op

/-- How many operand words follow the header, from OP alone (R72). -/
def operandWords (h : Word) : Nat :=
  if opField h = 0x03 ∨ opField h = 0x09 then 1 else if opField h = 0x10 then 2 else 0

/-! ## Decoding -/

/-- Why a header is illegal (R201 (a), (b)). -/
inductive Illegal where
  /-- OP is not in the table (R75). -/
  | unassignedOp (op : Byte)
  /-- OP is assigned and a reserved bit is not 0 (R74). -/
  | reservedBits (op : Byte)
  deriving DecidableEq, Repr

/-- What the decoder answers on a word sequence; `used` is the number of words the command takes up. -/
inductive Decoding where
  /-- a command -/
  | instr (i : Instr) (used : Nat)
  /-- no command: ILLEGAL_CMD, consumed with the operand words its OP calls for -/
  | illegal (why : Illegal) (used : Nat)
  /-- not yet a command: words are missing (R72) -/
  | incomplete
  deriving DecidableEq, Repr

/-- Operand assembly (R71). -/
def assembleOperands (op : Op) (h w1 w2 : Word) : Instr :=
  match op with
  | .crcClr => .crcClr
  | .crcBit => .crcBit ((fieldA h).getLsbD 0)
  | .crcInt => .crcInt w1
  | .crcRd => .crcRd
  | .cfgEnc => .cfgEnc (fieldA h) ((fieldB h).getLsbD 0)
  | .cfgDec => .cfgDec w1
  | .hexStart => .hexStart (fieldA h) ((fieldB h).getLsbD 0) w1 w2
  | .hexByte => .hexByte (fieldA h)
  | .hexEnd => .hexEnd
  | .hexAbort => .hexAbort
  | .status => .status
  | .reset => .reset

/-- The command a header and its operand words are, or why they are none (R74, R75). -/
def decodeCommand (h w1 w2 : Word) : Decoding :=
  match selectRow h with
  | some r => .instr (assembleOperands r.op h w1 w2) (1 + operandWords h)
  | none =>
    if assignedOp (opField h) then .illegal (.reservedBits (opField h)) (1 + operandWords h)
    else .illegal (.unassignedOp (opField h)) (1 + operandWords h)

/-- The first command of a word sequence (R72, R75): total, and the block's state never enters it (R76). -/
def decode : List Word → Decoding
  | [] => .incomplete
  | h :: ops =>
    if ops.length < operandWords h then .incomplete
    else decodeCommand h (ops.getD 0 0) (ops.getD 1 0)

/-- The record row of a record type byte (R79): no other type is ever emitted. -/
def decodeRecordType (t : Byte) : Option Instr :=
  if t = 0x00 then some .recData
  else if t = 0x01 then some .recEof
  else if t = 0x04 then some .recEla
  else none

/-- The words of a command whose bits are `w`, the header the least significant (log 14), exactly as many as its OP
calls for (R72). -/
def tableWords (w : Nat) : List Word :=
  [BitVec.ofNat 32 w, BitVec.ofNat 32 (w >>> 32), BitVec.ofNat 32 (w >>> 64)].take
    (1 + operandWords (BitVec.ofNat 32 w))

/-- The instruction whose `nbits` table bits are `w`. The table's command rows have 32-bit headers; its record rows
have the 8 bits of the record's type byte. -/
def decodeTableWord (nbits w : Nat) : Option Instr :=
  if nbits ≤ 8 then decodeRecordType (BitVec.ofNat 8 (w % 2 ^ nbits))
  else
    match decode (tableWords (w % 2 ^ nbits)) with
    | .instr i _ => some i
    | .illegal _ _ => none
    | .incomplete => none

/-! ## Encoding (R83) -/

/-- The words of a command (R83). A record row is not sent on the command port and has no words there. -/
def encode : Instr → List Word
  | .crcClr => [0x00000001]
  | .crcBit v => [(0x00000002 : Word) ||| bitWord v <<< 8]
  | .crcInt x => [0x00000003, x]
  | .crcRd => [0x00000004]
  | .cfgEnc pin h => [(0x00000008 : Word) ||| pin.setWidth 32 <<< 8 ||| bitWord h <<< 16]
  | .cfgDec word => [0x00000009, word]
  | .hexStart columns p base n => [(0x00000010 : Word) ||| columns.setWidth 32 <<< 8 ||| bitWord p <<< 16, base, n]
  | .hexByte d => [(0x00000011 : Word) ||| d.setWidth 32 <<< 8]
  | .hexEnd => [0x00000012]
  | .hexAbort => [0x00000013]
  | .status => [0x00000020]
  | .reset => [0x0000003F]
  | .recData | .recEof | .recEla => []

/-- The type byte of a record row (R79). -/
def recordTypeOf : Instr → Option Byte
  | .recData => some 0x00
  | .recEof => some 0x01
  | .recEla => some 0x04
  | .crcClr | .crcBit _ | .crcInt _ | .crcRd | .cfgEnc _ _ | .cfgDec _ | .hexStart _ _ _ _ | .hexByte _ | .hexEnd
  | .hexAbort | .status | .reset => none

end Sys2Proof
end

