-- ==== Sys2Proof/Machine/State.lean ====
section
/-! DEFINITION. The state of the block: the registers of R20, grouped by unit, and beside them its ports, which hold
what the host has sent and what the block has answered and delivered. -/

namespace Sys2Proof.Machine

/-- HSTATE (R23). -/
inductive HState where
  | idle
  | active
  deriving DecidableEq, Repr

/-- The error codes a command can answer (R200); 0x00 is no error and 0x06 to 0xFF are never produced (I6). -/
inductive ErrCode where
  | illegalCmd
  | invalidColumns
  | addressOverflow
  | sequence
  | lengthMismatch
  deriving DecidableEq, Repr

/-- One response (R40): success with its value words in the order of R77, or an error code. -/
inductive Response where
  | ok (values : List Word)
  | err (code : ErrCode)
  deriving DecidableEq, Repr

/-- What the host puts on the block's inputs, in order: a word on the command port (R39), or an assertion of the
reset input (R42, R231). -/
inductive Input where
  | word (w : Word)
  | resetPin
  deriving DecidableEq, Repr

/-- The framer's registers (R20, R23 to R34). RDATA is the list RDATA[0..RCNT-1], as R32 allows (log 6). -/
structure Framer where
  hstate : HState
  cols   : Byte
  pre    : Bool
  base   : Word
  len    : Word
  k      : Word
  offb   : Word
  raddr  : Half
  rcnt   : BitVec 6
  rdata  : List Byte
  rsum   : Byte
  pend   : List Record
  deriving DecidableEq, Repr

/-- The IDLE values of the framer registers, which are their reset values (R37, R230). -/
def Framer.idle : Framer :=
  { hstate := .idle, cols := 0, pre := false, base := 0, len := 0, k := 0, offb := 0, raddr := 0, rcnt := 0
    rdata := [], rsum := 0, pend := [] }

/-- The machine. `crc`, `framer` and `lastErr` are the block's registers (R20); `input`, `pos`, `resp` and `out` are
its ports: what the host has sent and the block has not consumed (R39, R72), how many commands it has consumed (R21),
the responses so far (R40, R197) and OUT (R41). -/
structure State where
  crc     : Byte
  framer  : Framer
  lastErr : Byte
  input   : List Input
  pos     : Nat
  resp    : List Response
  out     : List Record
  deriving DecidableEq, Repr

/-- The machine right after reset (R230), with nothing sent, answered or delivered yet. -/
def State.reset : State :=
  { crc := 0, framer := Framer.idle, lastErr := 0, input := [], pos := 0, resp := [], out := [] }

/-- Reasons for a step to stop the machine. There is none: every error of the block is a response after which the host
goes on (R204, R207, log 10), and a command whose words are missing makes the block wait, which is no fault (R72). -/
inductive Fault where
  deriving DecidableEq, Repr

/-- Reasons to give an instruction no meaning. -/
inductive Refusal where
  /-- Raised by an arm of `exec` that has no meaning yet; safe. No arm raises it now: every row has its meaning. -/
  | notModelled (mnemonic : String)
  deriving DecidableEq, Repr

end Sys2Proof.Machine
end

