-- ==== Sys2Proof/Machine/Flags.lean ====
section
/-! DEFINITION. The block has no condition codes (R45). Its status bits are the status words of R36, which are views
of registers, and the result codes of R200 that LAST_ERR and every response show (R77). -/

namespace Sys2Proof.Machine

/-- The value of an error code (R200). -/
def ErrCode.code : ErrCode → Byte
  | .illegalCmd => 0x01
  | .invalidColumns => 0x02
  | .addressOverflow => 0x03
  | .sequence => 0x04
  | .lengthMismatch => 0x05

/-- The result code of a response: 0x00 for OK (R200). -/
def Response.code : Response → Byte
  | .ok _ => 0x00
  | .err e => e.code

/-- The words of a response: P0 with the code in P0[7:0], and the value words for OK only (R77). -/
def Response.words : Response → List Word
  | .ok values => 0 :: values
  | .err e => [e.code.setWidth 32]

/-- HSTATE as the bit S0[0] (R36). -/
def HState.bit : HState → Bool
  | .idle => false
  | .active => true

/-- The status word S0 (R36, R190). -/
def statusS0 (s : State) : Word :=
  s.framer.rcnt.setWidth 32 <<< 24 ||| s.crc.setWidth 32 <<< 16 ||| s.lastErr.setWidth 32 <<< 8
    ||| bitWord (s.framer.cols == 32) <<< 2 ||| bitWord s.framer.pre <<< 1 ||| bitWord s.framer.hstate.bit

/-- The status word S1 (R36, R190). -/
def statusS1 (s : State) : Word := s.framer.k

end Sys2Proof.Machine
end

