-- ==== Sys2Proof/Machine/Ops.lean ====
section
/-! DEFINITION. The operations every command is made of (R12): writing a register, responding, committing the pending
records, and raising an error, which is the one way a command fails (R204). There is no trap and no return from one
(R207). -/

namespace Sys2Proof.Machine

/-- `CRC <- v` (R12). -/
def State.setCrc (s : State) (v : Byte) : State := { s with crc := v }

/-- Write the framer's registers. -/
def State.setFramer (s : State) (f : Framer) : State := { s with framer := f }

/-- `LAST_ERR <- v`, every command's last effect but for a well-formed STATUS (R192). -/
def State.setLastErr (s : State) (v : Byte) : State := { s with lastErr := v }

/-- Send one response (R40). -/
def State.respond (s : State) (r : Response) : State := { s with resp := s.resp ++ [r] }

/-- Put whole records on OUT (R41); only `commit` of a successful HEX_END does. -/
def State.deliver (s : State) (rs : List Record) : State := { s with out := s.out ++ rs }

/-- Consume `used` inputs of a complete command and move on in the host's command sequence (R21). -/
def State.consume (s : State) (used : Nat) : State := { s with input := s.input.drop used, pos := s.pos + 1 }

/-- `respond OK(values)` with LAST_ERR <- 0x00 (R12, R192). -/
def State.finishOk (s : State) (values : List Word) : State := (s.setLastErr 0x00).respond (.ok values)

/-- `emit(r)`: append r to PEND (R12). -/
def Framer.emit (f : Framer) (r : Record) : Framer := { f with pend := f.pend ++ [r] }

/-- `discard()` and every framer register to its IDLE value (R12, R37). -/
def State.abandon (s : State) : State := s.setFramer Framer.idle

/-- `commit()` and every framer register to its IDLE value (R12, R37, R151): PEND goes to OUT, whole. -/
def State.commit (s : State) (f : Framer) : State := (s.deliver f.pend).setFramer Framer.idle

/-- What an error does to the framer (R204): ILLEGAL_CMD leaves it alone, every other error discards the open
encode. -/
def ErrCode.unwind (e : ErrCode) (s : State) : State :=
  match e with
  | .illegalCmd => s
  | .invalidColumns | .addressOverflow | .sequence | .lengthMismatch => s.abandon

/-- `raise E`: the error effects of R204, LAST_ERR <- E, and the error response (R12, R192). -/
def State.raise (s : State) (e : ErrCode) : State := ((e.unwind s).setLastErr e.code).respond (.err e)

/-- Every register to its reset value, with `discard()` (R230, R231). The ports are no registers: OUT and the
responses stay (R232). -/
def State.resetRegisters (s : State) : State := ((s.setCrc 0x00).abandon).setLastErr 0x00

end Sys2Proof.Machine
end

