-- ==== Sys2Proof/Machine/Crc.lean ====
section
/-! DEFINITION. The CRC unit (R100, R101) and its commands (R102 to R105). -/

namespace Sys2Proof.Machine

/-- `crc_step(r, v)`: one step of the shift register (R100). -/
def crcStep (r : Byte) (v : Bool) : Byte :=
  (r <<< 1) ^^^ (if v ^^ r.getLsbD 7 then Config.poly else 0)

/-- Shift the bits x[L-1], ..., x[0] into the register r, most significant first. -/
def crcFeed (r : Byte) (x : Nat) : Nat → Byte
  | 0 => r
  | l + 1 => crcFeed (crcStep r (x.testBit l)) x l

/-- `bit_length(x)`: 0 for x = 0, else floor(log2 x) + 1 (R101). -/
def bitLength (x : Nat) : Nat := if x = 0 then 0 else x.log2 + 1

/-- `crc8(x)`: the minimal binary form of x fed into a zero register (R101). -/
def crc8 (x : Nat) : Byte := crcFeed 0x00 x (bitLength x)

/-- `crc8` as a hardware of fixed operand width computes it (R104, R106). -/
def crc8Fixed (x : Nat) : Byte := crcFeed 0x00 x Config.crcIntWidth

/-- A CRC value as a response word, `zext_32(crc)` (R77). -/
def crcWord (c : Byte) : Word := c.setWidth 32

/-- CRC_CLR (R102). -/
def execCrcClr (s : State) : Host.Outcome State Fault Refusal := .next ((s.setCrc 0x00).finishOk [])

/-- CRC_BIT v (R103). -/
def execCrcBit (v : Bool) (s : State) : Host.Outcome State Fault Refusal :=
  .next ((s.setCrc (crcStep s.crc v)).finishOk [])

/-- CRC_INT x (R104): starts from a zero register, whatever CRC held. -/
def execCrcInt (x : Word) (s : State) : Host.Outcome State Fault Refusal :=
  .next ((s.setCrc (crc8 x.toNat)).finishOk [crcWord (crc8 x.toNat)])

/-- CRC_RD (R105). -/
def execCrcRd (s : State) : Host.Outcome State Fault Refusal := .next (s.finishOk [crcWord s.crc])

end Sys2Proof.Machine
end

