-- ==== Sys2Proof/Machine/CfgWord.lean ====
section
/-! DEFINITION. The configuration-word codec (R120 to R122) and its commands (R123, R124). -/

namespace Sys2Proof.Machine

/-- `word3`: the magic in bits 23..9, the polarity in bit 8, the pin in bits 7..0 (R121). -/
def word3 (pin : Byte) (h : Bool) : Nat := Config.magic.toNat <<< 9 ||| h.toNat <<< 8 ||| pin.toNat

/-- The CRC byte of a configuration word (R122). -/
def cfgCrc (pin : Byte) (h : Bool) : Byte := crc8 (word3 pin h)

/-- `full_word = (word3 << 8) | crc` (R122). -/
def fullWord (pin : Byte) (h : Bool) : Word := BitVec.ofNat 32 (word3 pin h <<< 8 ||| (cfgCrc pin h).toNat)

/-- The pin of a configuration word, `word[2]` = W[15:8] (R124). -/
def cfgPin (word : Word) : Byte := word.extractLsb' 8 8

/-- The polarity of a configuration word, `word[1] mod 2` = W[16] (R124). -/
def cfgPinHigh (word : Word) : Bool := word.getLsbD 16

/-- CFG_DEC's response word V: V[7:0] = pin, V[8] = pin_high, the other bits 0 (R77). -/
def cfgValue (pin : Byte) (h : Bool) : Word := pin.setWidth 32 ||| bitWord h <<< 8

/-- CFG_ENC pin, h (R123): leaves CRC at crc8(word3). -/
def execCfgEnc (pin : Byte) (h : Bool) (s : State) : Host.Outcome State Fault Refusal :=
  .next ((s.setCrc (cfgCrc pin h)).finishOk [fullWord pin h])

/-- CFG_DEC word (R124): validates nothing (R128) and leaves CRC alone. -/
def execCfgDec (word : Word) (s : State) : Host.Outcome State Fault Refusal :=
  .next (s.finishOk [cfgValue (cfgPin word) (cfgPinHigh word)])

end Sys2Proof.Machine
end

