-- ==== Sys2Proof/Machine/Control.lean ====
section
/-! DEFINITION. The control commands (R190, R191). -/

namespace Sys2Proof.Machine

/-- STATUS (R190): writes no register, not even LAST_ERR (R192). -/
def execStatus (s : State) : Host.Outcome State Fault Refusal := .next (s.respond (.ok [statusS0 s, statusS1 s]))

/-- RESET (R191). -/
def execReset (s : State) : Host.Outcome State Fault Refusal := .next (s.resetRegisters.finishOk [])

end Sys2Proof.Machine
end

