-- ==== Sys2Proof/Machine/Operands.lean ====
section
/-! DEFINITION. What the commands compute from their operands before they touch a register: the bytes of a number
(R11), the stream and its target addresses (R142), and the checks on HEX_START's arguments (R141, R143). -/

namespace Sys2Proof.Machine

/-- `BE_N(v)`: the N bytes of v mod 2^(8N), most significant first (R11). -/
def beBytes : Nat → Nat → List Byte
  | 0, _ => []
  | n + 1, v => BitVec.ofNat 8 (v >>> (8 * n)) :: beBytes n v

/-- The size prefix of a buffer of length n (R53). -/
def sizePrefix (n : Word) : List Byte := beBytes Config.sizePrefixBytes n.toNat

/-- The number of prefix bytes, 4p (R142). -/
def prefixLength (p : Bool) : Nat := if p then Config.sizePrefixBytes else 0

/-- The stream of an encode: the prefix, if asked for, and then the buffer (R142). -/
def stream (p : Bool) (n : Word) (buf : List Byte) : List Byte := (if p then sizePrefix n else []) ++ buf

/-- `columns` is legal (R141). -/
def legalColumns (columns : Byte) : Bool := Config.legalColumns.contains columns

/-- Some stream byte would lie above the address space: base + 4p + n > 2^32 (R143, D11). -/
def addressOverflow (base : Word) (p : Bool) (n : Word) : Bool :=
  Config.addressLimit < base.toNat + prefixLength p + n.toNat

/-- The target address of the next buffer byte, BASE + 4*PRE + K, on unbounded integers (R142, R150). -/
def Framer.nextAddress (f : Framer) : Nat := f.base.toNat + prefixLength f.pre + f.k.toNat

/-- Byte k of a 32-bit word in big-endian order (R10, R56). -/
def wordByte (w : Word) (k : Nat) : Byte := w.extractLsb' (24 - 8 * k) 8

end Sys2Proof.Machine
end

