-- ==== Sys2Proof/Machine/Records.lean ====
section
/-! DEFINITION. Records: the checksum (R147), the fixed records (R146, R149), the byte form (R78), the text
(R80 to R82, R153), and the reading of records back into addresses (R52). -/

namespace Sys2Proof.Machine

/-- The high byte of a 16-bit address (R55). -/
def addrHigh (a : Half) : Byte := a.extractLsb' 8 8

/-- The low byte of a 16-bit address (R55). -/
def addrLow (a : Half) : Byte := a.extractLsb' 0 8

/-- The sum of a list of bytes, on unbounded integers (R11, R147). -/
def byteSum : List Byte → Nat
  | [] => 0
  | b :: bs => b.toNat + byteSum bs

/-- `(0x100 - (total mod 0x100)) mod 0x100` (R147). -/
def negMod256 (total : Nat) : Byte := BitVec.ofNat 8 ((0x100 - total % 0x100) % 0x100)

/-- The record checksum (R147). -/
def checksum (count : Byte) (addr : Half) (rtype : Byte) (data : List Byte) : Byte :=
  negMod256 (count.toNat + (addrHigh addr).toNat + (addrLow addr).toNat + rtype.toNat + byteSum data)

/-- The two data bytes of an ELA record, `[ob[31:24], ob[23:16]]` (R54). -/
def elaData (ob : Word) : List Byte := [wordByte ob 0, wordByte ob 1]

/-- `ELA(ob)` (R146). -/
def elaRecord (ob : Word) : Record :=
  { count := 2, addr := 0x0000, rtype := 0x04, data := elaData ob, csum := checksum 2 0x0000 0x04 (elaData ob) }

/-- `EOF` (R149). -/
def eofRecord : Record := { count := 0, addr := 0x0000, rtype := 0x01, data := [], csum := 0xFF }

/-- A record as a byte sequence (R78). -/
def recordBytes (r : Record) : List Byte :=
  [r.count, addrHigh r.addr, addrLow r.addr, r.rtype] ++ r.data ++ [r.csum]

/-- The ASCII code of the hexadecimal digit of a number below 16, upper case (R81). -/
def hexDigit (d : Nat) : Byte := if d < 10 then BitVec.ofNat 8 (0x30 + d) else BitVec.ofNat 8 (0x41 + (d - 10))

/-- `n` hexadecimal digits of v, most significant first (R80). -/
def hexDigits : Nat → Nat → List Byte
  | 0, _ => []
  | n + 1, v => hexDigit (v >>> (4 * n) % 16) :: hexDigits n v

/-- The text of a record, field by field, without its line terminator (R80). -/
def recordText (r : Record) : List Byte :=
  0x3A :: (hexDigits 2 r.count.toNat ++ hexDigits 4 r.addr.toNat ++ hexDigits 2 r.rtype.toNat
    ++ r.data.flatMap (fun b => hexDigits 2 b.toNat) ++ hexDigits 2 r.csum.toNat)

/-- `render(r)`: the text of a record and one line feed (R82, R153). -/
def render (r : Record) : List Byte := recordText r ++ [0x0A]

/-- The text of a record list (R153); OUT as the host may read it (R41). -/
def renderAll (rs : List Record) : List Byte := rs.flatMap render

/-- The bytes of a data record from target address a on. -/
def placedFrom (a : Nat) : List Byte → List (Nat × Byte)
  | [] => []
  | d :: ds => (a, d) :: placedFrom (a + 1) ds

/-- The bytes a record list places, in order, with U the upper address so far (R52). -/
def readBack (u : Nat) : List Record → List (Nat × Byte)
  | [] => []
  | r :: rs =>
    if r.rtype = 0x04 then
      readBack ((r.data.getD 0 0).toNat <<< 8 ||| (r.data.getD 1 0).toNat) rs
    else if r.rtype = 0x00 then placedFrom (u <<< 16 + r.addr.toNat) r.data ++ readBack u rs
    else readBack u rs

end Sys2Proof.Machine
end

