-- ==== Sys2Proof/Machine/Framer.lean ====
section
/-! DEFINITION. The record framer: the procedures FLUSH and PLACE (R144, R145) and the commands HEX_START, HEX_BYTE,
HEX_END and HEX_ABORT (R143, R150 to R152). -/

namespace Sys2Proof.Machine

/-! ## Procedures -/

/-- The record FLUSH emits: the current record, its checksum from the running sum (R145). -/
def Framer.currentRecord (f : Framer) : Record :=
  { count := f.rcnt.setWidth 8, addr := f.raddr, rtype := 0x00, data := f.rdata
    csum := negMod256
      (f.rcnt.toNat + (addrHigh f.raddr).toNat + (addrLow f.raddr).toNat + 0x00 + f.rsum.toNat) }

/-- `FLUSH()`: emit the current data record and empty it (R145). -/
def Framer.flush (f : Framer) : Framer :=
  { f.emit f.currentRecord with rcnt := 0, rdata := [], rsum := 0 }

/-- The crossing branch of PLACE: flush, OFFB <- rel, emit(ELA(OFFB)), RADDR <- 0 (R144, D12). -/
def Framer.cross (f : Framer) (rel : Nat) : Framer :=
  { ({ f.flush with offb := BitVec.ofNat 32 rel }).emit (elaRecord (BitVec.ofNat 32 rel)) with raddr := 0 }

/-- The capacity branch of PLACE: flush, RADDR <- rel - OFFB (R144). -/
def Framer.wrap (f : Framer) (rel : Nat) : Framer :=
  { f.flush with raddr := BitVec.ofNat 16 (rel - f.offb.toNat) }

/-- What PLACE does before it appends: the crossing test, else the capacity test (R144). -/
def Framer.makeRoom (f : Framer) (rel : Nat) : Framer :=
  if rel - f.offb.toNat = Config.segment then f.cross rel
  else if f.rcnt.toNat = f.cols.toNat then f.wrap rel
  else f

/-- `RDATA[RCNT] <- d; RCNT <- RCNT + 1; RSUM <- (RSUM + d) mod 256` (R144). -/
def Framer.append (f : Framer) (d : Byte) : Framer :=
  { f with rdata := f.rdata ++ [d], rcnt := f.rcnt + 1, rsum := f.rsum + d }

/-- `PLACE(d, rel)` (R144). -/
def Framer.place (f : Framer) (d : Byte) (rel : Nat) : Framer := (f.makeRoom rel).append d

/-- PLACE each byte of a list, at consecutive addresses from rel on. -/
def Framer.placeAll (f : Framer) (rel : Nat) : List Byte → Framer
  | [] => f
  | d :: ds => (f.place d rel).placeAll (rel + 1) ds

/-- Append each byte without the tests of PLACE: the reading PREFIX_PRELOAD of I3. -/
def Framer.appendAll (f : Framer) : List Byte → Framer
  | [] => f
  | d :: ds => (f.append d).appendAll ds

/-- The address rounded down to a segment boundary, `base - (base mod 0x10000)` (R29, R143). -/
def segmentBase (base : Word) : Word := BitVec.ofNat 32 (base.toNat - base.toNat % Config.segment)

/-- The framer of an opened encode before its size prefix is placed (R143). -/
def Framer.opened (columns : Byte) (p : Bool) (base n : Word) : Framer :=
  { hstate := .active, cols := columns, pre := p, base := base, len := n, k := 0
    offb := segmentBase base, raddr := BitVec.ofNat 16 (base.toNat % Config.segment)
    rcnt := 0, rdata := [], rsum := 0, pend := [elaRecord (segmentBase base)] }

/-- Place the size prefix of n at base (R143); `preload` is the parameter of I3. -/
def Framer.placePrefix (preload : Bool) (f : Framer) (base n : Word) : Framer :=
  if preload then f.appendAll (sizePrefix n) else f.placeAll base.toNat (sizePrefix n)

/-- The framer HEX_START leaves (R143). -/
def Framer.started (columns : Byte) (p : Bool) (base n : Word) : Framer :=
  if p then Framer.placePrefix Config.prefixPreload (Framer.opened columns p base n) base n
  else Framer.opened columns p base n

/-- HEX_BYTE's effect on the framer: PLACE(d, BASE + 4*PRE + K), K <- K + 1 (R150). -/
def Framer.accept (f : Framer) (d : Byte) : Framer := { f.place d f.nextAddress with k := f.k + 1 }

/-- The framer HEX_END commits: the last record flushed if it holds a byte, then EOF (R151). -/
def Framer.closed (f : Framer) : Framer := (if 0 < f.rcnt.toNat then f.flush else f).emit eofRecord

/-! ## Commands -/

/-- HEX_START columns, p, base, n (R143); the tests in the order of R205. -/
def execHexStart (columns : Byte) (p : Bool) (base n : Word) (s : State) : Host.Outcome State Fault Refusal :=
  if s.framer.hstate = .active then .next (s.raise .sequence)
  else if legalColumns columns = false then .next (s.raise .invalidColumns)
  else if addressOverflow base p n = true then .next (s.raise .addressOverflow)
  else .next ((s.setFramer (Framer.started columns p base n)).finishOk [])

/-- HEX_BYTE d (R150). -/
def execHexByte (d : Byte) (s : State) : Host.Outcome State Fault Refusal :=
  if s.framer.hstate = .idle then .next (s.raise .sequence)
  else if s.framer.k = s.framer.len then .next (s.raise .lengthMismatch)
  else .next ((s.setFramer (s.framer.accept d)).finishOk [])

/-- HEX_END (R151). -/
def execHexEnd (s : State) : Host.Outcome State Fault Refusal :=
  if s.framer.hstate = .idle then .next (s.raise .sequence)
  else if s.framer.k.toNat < s.framer.len.toNat then .next (s.raise .lengthMismatch)
  else .next ((s.commit s.framer.closed).finishOk [BitVec.ofNat 32 s.framer.closed.pend.length])

/-- HEX_ABORT (R152). -/
def execHexAbort (s : State) : Host.Outcome State Fault Refusal := .next (s.abandon.finishOk [])

end Sys2Proof.Machine
end

