-- ==== Sys2Proof/Machine/RecordRows.lean ====
section
/-! DEFINITION. The record rows of spec/opcode_table.json (R79). They are the framer's own emissions, the same
procedures the commands call, and no commands: they send no response and write no LAST_ERR (log 8, log 9). -/

namespace Sys2Proof.Machine

/-- REC_DATA: FLUSH() (R145). -/
def execRecData (s : State) : Host.Outcome State Fault Refusal := .next (s.setFramer s.framer.flush)

/-- REC_EOF: emit(EOF) (R149). -/
def execRecEof (s : State) : Host.Outcome State Fault Refusal := .next (s.setFramer (s.framer.emit eofRecord))

/-- REC_ELA: emit(ELA(OFFB)) (R146). -/
def execRecEla (s : State) : Host.Outcome State Fault Refusal :=
  .next (s.setFramer (s.framer.emit (elaRecord s.framer.offb)))

end Sys2Proof.Machine
end

