-- ==== Sys2Proof/Machine/Dispatch.lean ====
section
/-! DEFINITION. One arm per row of spec/opcode_table.json, each a direct call of its meaning. -/

namespace Sys2Proof.Machine

def exec (i : Instr) (s : State) : Host.Outcome State Fault Refusal :=
  match i with
  | .crcClr => Sys2Proof.Machine.execCrcClr s
  | .crcBit v => Sys2Proof.Machine.execCrcBit v s
  | .crcInt x => Sys2Proof.Machine.execCrcInt x s
  | .crcRd => Sys2Proof.Machine.execCrcRd s
  | .cfgEnc pin h => Sys2Proof.Machine.execCfgEnc pin h s
  | .cfgDec word => Sys2Proof.Machine.execCfgDec word s
  | .hexStart columns p base n => Sys2Proof.Machine.execHexStart columns p base n s
  | .hexByte d => Sys2Proof.Machine.execHexByte d s
  | .hexEnd => Sys2Proof.Machine.execHexEnd s
  | .hexAbort => Sys2Proof.Machine.execHexAbort s
  | .status => Sys2Proof.Machine.execStatus s
  | .reset => Sys2Proof.Machine.execReset s
  -- the record rows (R79): emissions of the framer, no commands
  | .recData => Sys2Proof.Machine.execRecData s
  | .recEof => Sys2Proof.Machine.execRecEof s
  | .recEla => Sys2Proof.Machine.execRecEla s

end Sys2Proof.Machine
end

