-- ==== Sys2Proof/Machine/Fetch.lean ====
section
/-! DEFINITION. Taking the next command from the host's inputs (R39, R72), the reset input (R231), and the illegal
command (R74, R75, R204). -/

namespace Sys2Proof.Machine

/-- The words that have arrived before the next assertion of the reset input. -/
def arrivedWords : List Input → List Word
  | [] => []
  | .word w :: rest => w :: arrivedWords rest
  | .resetPin :: _ => []

/-- What the block does next. -/
inductive Fetched where
  /-- run a command of `used` words -/
  | command (i : Instr) (used : Nat)
  /-- consume an illegal header with its operand words -/
  | illegal (used : Nat)
  /-- the reset input is asserted; the inputs after it -/
  | resetPin (rest : List Input)
  /-- wait for words -/
  | waiting
  deriving DecidableEq, Repr

/-- Where the words so far make no command, the reset input, if it comes next, throws them away (R231); else the block
waits (R72). -/
def fetchIncomplete (input : List Input) : Fetched :=
  match input.drop (arrivedWords input).length with
  | .resetPin :: rest => .resetPin rest
  | _ => .waiting

/-- The next command, illegal header, reset or wait. -/
def fetch (input : List Input) : Fetched :=
  match decode (arrivedWords input) with
  | .instr i used => .command i used
  | .illegal _ used => .illegal used
  | .incomplete => fetchIncomplete input

/-- An illegal command: consumed, and ILLEGAL_CMD raised without executing anything (R74, R75, R204). -/
def illegalCommand (used : Nat) (s : State) : State := (s.consume used).raise .illegalCmd

/-- The reset input (R231): the inputs up to its assertion are gone, every register is at reset, no response is sent,
because no command ran (R40). -/
def assertReset (rest : List Input) (s : State) : State := { s.resetRegisters with input := rest }

/-- Put a command's words before everything the host has sent. -/
def placeWords (ws : List Word) (s : State) : State := { s with input := ws.map Input.word ++ s.input }

/-- The words the host must send for the instruction of a table row; none for a record row, which no host sends
(R75, R79, log 8). -/
def wordsToPlace (nbits w : Nat) : List Word := if nbits ≤ 8 then [] else tableWords (w % 2 ^ nbits)

end Sys2Proof.Machine
end

