-- ==== Sys2Proof/Machine/Step.lean ====
section
/-! DEFINITION. One step: one command, one illegal header, one assertion of the reset input, or a wait (R6, R21,
R72, R231). -/

namespace Sys2Proof.Machine

/-- One step of the block. A wait leaves the state as it is: no response, no state change (R72, log 2). -/
def step (s : State) : Host.Outcome State Fault Refusal :=
  match fetch s.input with
  | .command i used => exec i (s.consume used)
  | .illegal used => .next (illegalCommand used s)
  | .resetPin rest => .next (assertReset rest s)
  | .waiting => .next s

/-- `s` with the instruction of a table row next on the command port, as if the host had sent it (log 1). A record row
is no command, so nothing is placed for it (log 8). -/
def State.withFetchWord (s : State) (nbits w : Nat) : State := placeWords (wordsToPlace nbits w) s

end Sys2Proof.Machine
end

