-- ==== Sys2Proof/Machine/Sequence.lean ====
section
/-! DEFINITION. Command sequences: the two pseudo-commands (R84, R85) and running a list of commands in order (R21). -/

namespace Sys2Proof.Machine

/-- `HEX_ENCODE columns, p, base, [b0, ..., b(n-1)]` (R84). -/
def hexEncodeCommands (columns : Byte) (p : Bool) (base : Word) (buf : List Byte) : List Instr :=
  Instr.hexStart columns p base (BitVec.ofNat 32 buf.length) :: (buf.map Instr.hexByte ++ [Instr.hexEnd])

/-- `CRC_FEED x, w`: the low w bits of x, most significant first, whatever lies above them in x (R85). -/
def crcFeedCommands (x : Nat) : Nat → List Instr
  | 0 => []
  | w + 1 => Instr.crcBit (x.testBit w) :: crcFeedCommands x w

/-- Execute a list of commands in order, each from the state the one before it left (R21, R62). -/
def execAll : List Instr → State → Host.Outcome State Fault Refusal
  | [], s => .next s
  | i :: is, s =>
    match exec i s with
    | .next t => execAll is t
    | .fault e => .fault e
    | .refused e => .refused e

end Sys2Proof.Machine
end

