-- ==== Sys2Proof/Machine/Asm.lean ====
section
/-! DEFINITION. The assembler's command lines (R83 to R85): text to an `AsmCmd`, and an `AsmCmd` to its commands and
their words, rejecting an operand that does not fit its field. What the spec leaves open of the text (spaces, the case
of hexadecimal digits) is log 16. -/

namespace Sys2Proof.Machine

/-- A one-bit operand that fits its field. -/
def bitOperand (v : Nat) : Bool := v == 1

/-- The commands of a line whose operands fit (R83, R84, R85). -/
def expand : AsmCmd → List Instr
  | .crcClr => [.crcClr]
  | .crcBit v => [.crcBit (bitOperand v)]
  | .crcInt x => [.crcInt (BitVec.ofNat 32 x)]
  | .crcRd => [.crcRd]
  | .cfgEnc pin h => [.cfgEnc (BitVec.ofNat 8 pin) (bitOperand h)]
  | .cfgDec word => [.cfgDec (BitVec.ofNat 32 word)]
  | .hexStart columns p base n =>
      [.hexStart (BitVec.ofNat 8 columns) (bitOperand p) (BitVec.ofNat 32 base) (BitVec.ofNat 32 n)]
  | .hexByte d => [.hexByte (BitVec.ofNat 8 d)]
  | .hexEnd => [.hexEnd]
  | .hexAbort => [.hexAbort]
  | .status => [.status]
  | .reset => [.reset]
  | .hexEncode columns p base buf =>
      hexEncodeCommands (BitVec.ofNat 8 columns) (bitOperand p) (BitVec.ofNat 32 base) (buf.map (BitVec.ofNat 8))
  | .crcFeed x w => crcFeedCommands x w

/-- An assembler rejects an operand that does not fit its field (R83). -/
def assemble (c : AsmCmd) : Option (List Instr) := if c.wellFormed then some (expand c) else none

/-- The command words of a line. -/
def assembleWords (c : AsmCmd) : Option (List Word) := (assemble c).map (fun is => is.flatMap encode)

/-! ## Text -/

/-- Drop leading spaces. -/
def skipSpaces : List Char → List Char
  | ' ' :: cs => skipSpaces cs
  | cs => cs

/-- Drop spaces at both ends. -/
def trimSpaces (cs : List Char) : List Char := (skipSpaces (skipSpaces cs).reverse).reverse

/-- The value of a digit in base 16, or none. -/
def digitValue (c : Char) : Option Nat :=
  let n := c.toNat
  if 0x30 ≤ n ∧ n ≤ 0x39 then some (n - 0x30)
  else if 0x41 ≤ n ∧ n ≤ 0x46 then some (n - 0x41 + 10)
  else if 0x61 ≤ n ∧ n ≤ 0x66 then some (n - 0x61 + 10)
  else none

/-- Read digits of a base onto the number read so far. -/
def readDigits (radix : Nat) : Nat → List Char → Option Nat
  | acc, [] => some acc
  | acc, c :: cs =>
    match digitValue c with
    | some d => if d < radix then readDigits radix (acc * radix + d) cs else none
    | none => none

/-- An integer, decimal or 0x-prefixed hexadecimal (R83), with spaces around it. -/
def readNumber (cs : List Char) : Option Nat :=
  match trimSpaces cs with
  | '0' :: 'x' :: d :: ds => readDigits 16 0 (d :: ds)
  | d :: ds => readDigits 10 0 (d :: ds)
  | [] => none

/-- The parts of a text between commas; at least one. -/
def splitCommas : List Char → List (List Char)
  | [] => [[]]
  | c :: cs =>
    if c = ',' then [] :: splitCommas cs
    else
      match splitCommas cs with
      | part :: parts => (c :: part) :: parts
      | [] => [[c]]

/-- A list of numbers, all or none. -/
def readNumbers : List (List Char) → Option (List Nat)
  | [] => some []
  | part :: parts =>
    match readNumber part, readNumbers parts with
    | some n, some ns => some (n :: ns)
    | _, _ => none

/-- The operands of a line: none when the text is blank. -/
def readOperands (cs : List Char) : Option (List Nat) :=
  if trimSpaces cs = [] then some [] else readNumbers (splitCommas cs)

/-- A command from its name and operands; none where the name is unknown or the number of operands is not its own. -/
def lineOf (name : List Char) (operands : List Nat) : Option AsmCmd :=
  match operands with
  | [] =>
    if name = ['C', 'R', 'C', '_', 'C', 'L', 'R'] then some .crcClr
    else if name = ['C', 'R', 'C', '_', 'R', 'D'] then some .crcRd
    else if name = ['H', 'E', 'X', '_', 'E', 'N', 'D'] then some .hexEnd
    else if name = ['H', 'E', 'X', '_', 'A', 'B', 'O', 'R', 'T'] then some .hexAbort
    else if name = ['S', 'T', 'A', 'T', 'U', 'S'] then some .status
    else if name = ['R', 'E', 'S', 'E', 'T'] then some .reset
    else none
  | [a] =>
    if name = ['C', 'R', 'C', '_', 'B', 'I', 'T'] then some (.crcBit a)
    else if name = ['C', 'R', 'C', '_', 'I', 'N', 'T'] then some (.crcInt a)
    else if name = ['C', 'F', 'G', '_', 'D', 'E', 'C'] then some (.cfgDec a)
    else if name = ['H', 'E', 'X', '_', 'B', 'Y', 'T', 'E'] then some (.hexByte a)
    else none
  | [a, b] =>
    if name = ['C', 'F', 'G', '_', 'E', 'N', 'C'] then some (.cfgEnc a b)
    else if name = ['C', 'R', 'C', '_', 'F', 'E', 'E', 'D'] then some (.crcFeed a b)
    else none
  | [a, b, c, d] =>
    if name = ['H', 'E', 'X', '_', 'S', 'T', 'A', 'R', 'T'] then some (.hexStart a b c d) else none
  | _ => none

/-- The operands of HEX_ENCODE: three numbers, a comma, and a bracketed list (R84). -/
def readEncode (cs : List Char) : Option AsmCmd :=
  match cs.dropWhile (· ≠ '[') with
  | '[' :: tail =>
    match (splitCommas (cs.takeWhile (· ≠ '['))).map trimSpaces, tail.dropWhile (· ≠ ']') with
    | [c, p, b, []], ']' :: after =>
      match readNumber c, readNumber p, readNumber b, readOperands (tail.takeWhile (· ≠ ']')) with
      | some columns, some polarity, some base, some buf =>
        if trimSpaces after = [] then some (.hexEncode columns polarity base buf) else none
      | _, _, _, _ => none
    | _, _ => none
  | _ => none

/-- One line of assembler text (R83 to R85): a name, a space where operands follow, the operands between commas. -/
def readLine (line : List Char) : Option AsmCmd :=
  let text := trimSpaces line
  let name := text.takeWhile (· ≠ ' ')
  let tail := text.dropWhile (· ≠ ' ')
  if name = ['H', 'E', 'X', '_', 'E', 'N', 'C', 'O', 'D', 'E'] then readEncode tail
  else
    match readOperands tail with
    | some operands => lineOf name operands
    | none => none

/-- The commands of a line of text, if it is one. -/
def assembleLine (line : List Char) : Option (List Instr) :=
  match readLine line with
  | some c => assemble c
  | none => none

end Sys2Proof.Machine
end

