-- ==== Sys2Proof/Machine/Encode.lean ====
section
/-! DEFINITION. The whole encode as the source's pure function, `ihex_encode(buf, base, columns, p)` (R140, R142),
written from the stream alone, and the parts of its record list that the laws of R154 to R163 speak of. -/

namespace Sys2Proof.Machine

/-- The length operand of a buffer (R84). -/
def bufLen (buf : List Byte) : Word := BitVec.ofNat 32 buf.length

/-- The stream of an encode (R142). -/
def encodeStream (buf : List Byte) (p : Bool) : List Byte := stream p (bufLen buf) buf

/-- The framer after every stream byte has been placed, byte j at base + j (R142, R144). -/
def encodeFramer (buf : List Byte) (base : Word) (columns : Byte) (p : Bool) : Framer :=
  (Framer.opened columns p base (bufLen buf)).placeAll base.toNat (encodeStream buf p)

/-- `ihex_encode(buf, base, columns, p)`, the record list a successful encode delivers (R140). -/
def ihexEncode (buf : List Byte) (base : Word) (columns : Byte) (p : Bool) : List Record :=
  (encodeFramer buf base columns p).closed.pend

/-- The text of an encode (R153). -/
def encodeText (buf : List Byte) (base : Word) (columns : Byte) (p : Bool) : List Byte :=
  renderAll (ihexEncode buf base columns p)

/-- The data records of a list (R79). -/
def dataRecords (rs : List Record) : List Record := rs.filter (fun r => r.rtype == 0x00)

/-- The ELA records of a list (R79). -/
def elaRecords (rs : List Record) : List Record := rs.filter (fun r => r.rtype == 0x04)

end Sys2Proof.Machine
end

