-- ==== Sys2Proof/Safety.lean ====
section
/-! DEFINITION. What counts as a sound state and a sound record list: the invariants of R37 and R38 and the laws of
R156 and R160, in the terms the statements use. -/

namespace Sys2Proof

open Machine

/-- The checksum law of a record: all its bytes sum to 0 mod 256 (R160). -/
abbrev Record.ChecksumLaw (r : Record) : Prop :=
  (r.count.toNat + (addrHigh r.addr).toNat + (addrLow r.addr).toNat + r.rtype.toNat + byteSum r.data + r.csum.toNat)
    % 256 = 0

/-- The count of a record is the length of its data (R13). -/
abbrev Record.CountLaw (r : Record) : Prop := r.data.length = r.count.toNat

/-- A data record of the framer: 1 to 32 bytes, none beyond the segment's end (R79, R156). -/
abbrev Record.IsData (r : Record) : Prop :=
  r.rtype = 0x00 ∧ 1 ≤ r.count.toNat ∧ r.count.toNat ≤ 32 ∧ r.addr.toNat + r.count.toNat ≤ Config.segment

/-- An ELA record (R79, R146). -/
abbrev Record.IsEla (r : Record) : Prop := r.rtype = 0x04 ∧ r.count = 2 ∧ r.addr = 0

/-- The end-of-file record (R79, R149). -/
abbrev Record.IsEof (r : Record) : Prop := r = eofRecord

/-- One of the three records the block emits (R79), with its count and checksum right (R13, R160). -/
abbrev Record.Sound (r : Record) : Prop := r.CountLaw ∧ r.ChecksumLaw ∧ (r.IsData ∨ r.IsEla ∨ r.IsEof)

namespace Machine

/-- R37: an IDLE framer holds its IDLE values. -/
abbrev Framer.IdleLaw (f : Framer) : Prop := f.hstate = .idle → f = Framer.idle

/-- R38: what holds of an open encode between commands, with what R24, R28 and R32 say of COLS, K and RDATA. -/
structure Framer.OpenLaw (f : Framer) : Prop where
  /-- R24 -/
  cols_legal : legalColumns f.cols = true
  /-- R28 -/
  k_le_len : f.k.toNat ≤ f.len.toNat
  /-- R38 (a) -/
  offb_aligned : f.offb.toNat % Config.segment = 0
  /-- R38 (a) -/
  offb_le_next : f.offb.toNat ≤ f.nextAddress
  /-- R38 (b) -/
  position : f.offb.toNat + f.raddr.toNat + f.rcnt.toNat = f.nextAddress
  /-- R38 (b) -/
  within_segment : f.nextAddress ≤ f.offb.toNat + Config.segment
  /-- R38 (c) -/
  rcnt_le_cols : f.rcnt.toNat ≤ f.cols.toNat
  /-- R32 -/
  rdata_length : f.rdata.length = f.rcnt.toNat
  /-- R38 (d) -/
  running_sum : f.rsum.toNat = byteSum f.rdata % 256
  /-- R38 (e) -/
  fits : f.base.toNat + prefixLength f.pre + f.len.toNat ≤ Config.addressLimit
  /-- R38 (f) -/
  starts_with_ela : ∃ r rs, f.pend = r :: rs ∧ r.IsEla
  /-- R38 (f) -/
  pend_checksums : ∀ r ∈ f.pend, r.ChecksumLaw
  /-- R38 (g) -/
  empty_only_at_start : f.rcnt = 0 → f.pre = false ∧ f.k = 0

/-- R37 and R38 together: what holds of the block between commands. -/
structure State.Inv (s : State) : Prop where
  idle : s.framer.IdleLaw
  active : s.framer.hstate = .active → s.framer.OpenLaw

/-- Every record pending or delivered is one the block may emit (R79, R156, R160). -/
abbrev State.RecordsSound (s : State) : Prop := (∀ r ∈ s.framer.pend, r.Sound) ∧ ∀ r ∈ s.out, r.Sound

end Machine

end Sys2Proof
end

