-- ==== Sys2Proof/Certificates/Slice0/Obligations.lean ====
section
/-! DEFINITION. The statements about the block for the provers, from the numbered rules of spec/. A state is written out
by its registers: `{ s with … }` says that everything it does not name is as it was. -/

open Sys2Proof Sys2Proof.Machine

namespace Sys2Proof.Claims

/-- The host's next inputs are these words, and then `rest`. -/
abbrev Sends (s : State) (ws : List Word) (rest : List Input) : Prop := s.input = ws.map Input.word ++ rest

/-- The state after an illegal command: its words consumed, LAST_ERR 0x01, one error response (R74, R204). -/
abbrev afterIllegal (s : State) (rest : List Input) : State :=
  { s with input := rest, pos := s.pos + 1, lastErr := 0x01, resp := s.resp ++ [.err .illegalCmd] }

/-- The state after a framer error: the framer at its IDLE values, LAST_ERR the code, one error response (R204). -/
abbrev afterFramerError (s : State) (e : ErrCode) (code : Byte) : State :=
  { s with framer := Framer.idle, lastErr := code, resp := s.resp ++ [.err e] }

/-- A header of this opcode whose fixed bits are not those of its row is consumed with its operand words and raises
ILLEGAL_CMD, in every state (R74). -/
abbrev RefusesReserved (op : Byte) (mask value : Word) (operands : Nat) : Prop :=
  ∀ (s : State) (h : Word) (ws : List Word) (rest : List Input),
    ws.length = operands → opField h = op → h &&& mask ≠ value → Sends s (h :: ws) rest →
      step s = .next (afterIllegal s rest)

/-- The buffer, address and columns of an encode that HEX_START accepts (R143) and whose length n is its buffer's. -/
abbrev Encodable (buf : List Byte) (base : Word) (columns : Byte) (p : Bool) : Prop :=
  (columns = 16 ∨ columns = 32) ∧ buf.length < 2 ^ 32 ∧
    base.toNat + (if p then 4 else 0) + buf.length ≤ 2 ^ 32

/-- The value of the last response, for statements about its words. -/
abbrev lastWords (s : State) : Option (List Word) := s.resp.getLast?.map Response.words

/-- A command of the CRC unit (R193). -/
abbrev IsCrcUnit : Instr → Bool
  | .crcClr | .crcBit _ | .crcInt _ | .crcRd | .cfgEnc _ _ | .cfgDec _ => true
  | .hexStart _ _ _ _ | .hexByte _ | .hexEnd | .hexAbort | .status | .reset | .recData | .recEof | .recEla => false

/-- A command of the framer (R193). -/
abbrev IsFramerUnit : Instr → Bool
  | .hexStart _ _ _ _ | .hexByte _ | .hexEnd | .hexAbort => true
  | .crcClr | .crcBit _ | .crcInt _ | .crcRd | .cfgEnc _ _ | .cfgDec _ | .status | .reset | .recData | .recEof
  | .recEla => false

/-- A command that R22 lists as writing CRC. -/
abbrev WritesCrc : Instr → Bool
  | .crcClr | .crcBit _ | .crcInt _ | .cfgEnc _ _ | .reset => true
  | .crcRd | .cfgDec _ | .hexStart _ _ _ _ | .hexByte _ | .hexEnd | .hexAbort | .status | .recData | .recEof
  | .recEla => false

/-- Carry-less product of the low k bits of a with b, the product of GF(2) polynomials (R108). -/
def clmul (b : Nat) (a : Nat) : Nat → Nat
  | 0 => 0
  | k + 1 => (if a.testBit k then b <<< k else 0) ^^^ clmul b a k

end Sys2Proof.Claims

open Sys2Proof.Claims

/-! ## The CRC unit -/

/-- R100: the step is the source's bit-level formula. -/
def Obligations.CrcStepIsTheBitFormula : Prop :=
  ∀ (r : Byte) (v : Bool),
    (crcStep r v).getLsbD 0 = (v ^^ r.getLsbD 7) ∧
    (crcStep r v).getLsbD 1 = (r.getLsbD 0 ^^ (v ^^ r.getLsbD 7)) ∧
    (crcStep r v).getLsbD 2 = (r.getLsbD 1 ^^ (v ^^ r.getLsbD 7)) ∧
    (crcStep r v).getLsbD 3 = r.getLsbD 2 ∧ (crcStep r v).getLsbD 4 = r.getLsbD 3 ∧
    (crcStep r v).getLsbD 5 = r.getLsbD 4 ∧ (crcStep r v).getLsbD 6 = r.getLsbD 5 ∧
    (crcStep r v).getLsbD 7 = r.getLsbD 6 ∧
    (crcStep r v).toNat = ((r.toNat <<< 1) % 256) ^^^ (if (v ^^ r.getLsbD 7) then 0x07 else 0x00)

/-- R102: CRC_CLR, in every state, and its illegal headers. -/
def Obligations.CrcClrClearsTheRegister : Prop :=
  (∀ s : State, exec .crcClr s = .next { s with crc := 0x00, lastErr := 0x00, resp := s.resp ++ [.ok []] }) ∧
  encode .crcClr = [0x00000001] ∧ RefusesReserved 0x01 0xFFFFFFFF 0x00000001 0

/-- R103: CRC_BIT, in every state, its corner cases, and its illegal headers. -/
def Obligations.CrcBitShiftsOneBit : Prop :=
  (∀ (v : Bool) (s : State),
    exec (.crcBit v) s = .next { s with crc := crcStep s.crc v, lastErr := 0x00, resp := s.resp ++ [.ok []] }) ∧
  (∀ v : Bool, encode (.crcBit v) = [(0x00000002 : Word) ||| bitWord v <<< 8]) ∧
  RefusesReserved 0x02 0xFFFFFEFF 0x00000002 0 ∧
  crcStep 0x00 false = 0x00 ∧ crcStep 0x80 true = 0x00 ∧ crcStep 0x80 false = 0x07 ∧ crcStep 0x00 true = 0x07

/-- R104: CRC_INT, in every state, whatever CRC held; corner cases; illegal headers. What the rule takes from its
derived laws, the fixed 32 bits and its example, stands in LeadingZerosLeaveCrc8. -/
def Obligations.CrcIntComputesCrc8 : Prop :=
  (∀ (x : Word) (s : State),
    exec (.crcInt x) s = .next { s with
      crc := crcFeed 0x00 x.toNat (bitLength x.toNat), lastErr := 0x00
      resp := s.resp ++ [.ok [(crcFeed 0x00 x.toNat (bitLength x.toNat)).setWidth 32]] }) ∧
  (∀ x : Word, crcFeed 0x00 x.toNat (bitLength x.toNat) = crc8 x.toNat) ∧
  (∀ x : Word, encode (.crcInt x) = [0x00000003, x]) ∧
  RefusesReserved 0x03 0xFFFFFFFF 0x00000003 1 ∧
  crc8 0 = 0x00 ∧ crc8 1 = 0x07 ∧ crc8 0xFFFFFFFF = 0xDE

/-- R105: CRC_RD, in every state, after reset and in the rule's example; illegal headers. -/
def Obligations.CrcRdReadsTheRegister : Prop :=
  (∀ s : State,
    exec .crcRd s = .next { s with lastErr := 0x00, resp := s.resp ++ [.ok [s.crc.setWidth 32]] }) ∧
  encode .crcRd = [0x00000004] ∧ RefusesReserved 0x04 0xFFFFFFFF 0x00000004 0 ∧
  exec .crcRd State.reset = .next { State.reset with resp := [.ok [0]] } ∧
  ∀ s : State, ∃ t, execAll [.crcClr, .crcBit true, .crcBit false, .crcRd] s = .next t ∧ lastWords t = some [0, 0x0E]

/-- 40_crc8.md sections 2 and 3 (marked derived there): leading zeros do not matter, so every width that holds x gives
crc8(x), CRC_INT's 32 bits among them; and CRC_INT's example. -/
def Obligations.LeadingZerosLeaveCrc8 : Prop :=
  (∀ x w : Nat, x < 2 ^ w → crcFeed 0x00 x w = crc8 x) ∧
  (∀ x : Word, crcFeed 0x00 x.toNat 32 = crc8 x.toNat) ∧
  ∀ s : State, exec (.crcInt 0x00947D) s = .next { s with
    crc := 0xC1, lastErr := 0x00, resp := s.resp ++ [.ok [0xC1]] }

/-- 40_crc8.md section 3 (marked derived there): crc8 is linear over GF(2), the XOR of its weights over the set bits,
and the weights of bits 0 to 23 are the listed ones. -/
def Obligations.Crc8IsLinear : Prop :=
  (∀ a b : Nat, crc8 (a ^^^ b) = crc8 a ^^^ crc8 b) ∧
  (∀ x : Nat, crc8 x =
    ((List.range (bitLength x)).filter (fun i => x.testBit i)).foldr (fun i acc => crc8 (2 ^ i) ^^^ acc) 0x00) ∧
  (List.range 24).map (fun i => crc8 (2 ^ i)) =
    [0x07, 0x0E, 0x1C, 0x38, 0x70, 0xE0, 0xC7, 0x89, 0x15, 0x2A, 0x54, 0xA8, 0x57, 0xAE, 0x5B, 0xB6, 0x6B, 0xD6,
      0xAB, 0x51, 0xA2, 0x43, 0x86, 0x0B]

/-- 40_crc8.md section 3 (marked derived there): crc8(x) is the remainder of x(z) * z^8 divided by z^8 + z^2 + z + 1
over GF(2): it has 8 bits, and x(z) * z^8 plus it is a multiple of the generator. -/
def Obligations.Crc8IsThePolynomialRemainder : Prop :=
  ∀ x : Nat, ∃ q k : Nat, (x <<< 8) ^^^ (crc8 x).toNat = clmul 0x107 q k

/-- 40_crc8.md section 3 (marked derived there): appending the CRC gives zero. -/
def Obligations.AppendedCrcGivesZero : Prop :=
  ∀ x : Nat, crc8 (x <<< 8 ||| (crc8 x).toNat) = 0x00

/-- 30_encoding.md section 4 and 40_crc8.md section 3: CRC_FEED x, w, for an x of any size, shifts its low w bits into
CRC as it stands, answers OK w times, and touches nothing else. From a zero register it leaves crc8(x) when w bits hold
x, and after CRC_CLR the value CRC_INT x leaves (both marked derived there). -/
def Obligations.CrcFeedGivesCrc8 : Prop :=
  (∀ (x w : Nat) (s : State), 1 ≤ w → w ≤ 32 →
    execAll (crcFeedCommands x w) s = .next { s with
      crc := crcFeed s.crc x w, lastErr := 0x00, resp := s.resp ++ List.replicate w (.ok []) }) ∧
  (∀ (x w : Nat) (s : State), 1 ≤ w → w ≤ 32 → x < 2 ^ w → s.crc = 0x00 →
    execAll (crcFeedCommands x w) s = .next { s with
      crc := crc8 x, lastErr := 0x00, resp := s.resp ++ List.replicate w (.ok []) }) ∧
  ∀ (x w : Nat) (s : State), 1 ≤ w → w ≤ 32 → x < 2 ^ w → ∃ t u,
    execAll (.crcClr :: crcFeedCommands x w) s = .next t ∧ exec (.crcInt (BitVec.ofNat 32 x)) s = .next u ∧
    t.crc = u.crc

/-! ## The configuration word -/

/-- R120: word3 is the source's packing formula. -/
def Obligations.Word3IsTheSourceFormula : Prop :=
  ∀ (pin : Byte) (h : Bool),
    word3 pin h = ((0x494F <<< 17) + ((if h then 1 else 0) <<< 16) + (pin.toNat <<< 8)) >>> 8

/-- 41_cfgword.md sections 1 and 2 (marked derived there): the fields of word3 and of full_word, its bytes, and its CRC;
and CFG_ENC's example. -/
def Obligations.FullWordFields : Prop :=
  (∀ s : State, exec (.cfgEnc 5 false) s = .next { s with
    crc := 0x53, lastErr := 0x00, resp := s.resp ++ [.ok [0x929E0553]] }) ∧
  ∀ (pin : Byte) (h : Bool),
    word3 pin h = (0x929E00 ||| (if h then 0x100 else 0) ||| pin.toNat) ∧
    (fullWord pin h).extractLsb' 17 15 = (0x494F : BitVec 15) ∧ (fullWord pin h).getLsbD 16 = h ∧
    (fullWord pin h).extractLsb' 8 8 = pin ∧ (fullWord pin h).extractLsb' 0 8 = crc8 (word3 pin h) ∧
    wordByte (fullWord pin h) 0 = 0x92 ∧ wordByte (fullWord pin h) 1 = (if h then 0x9F else 0x9E) ∧
    wordByte (fullWord pin h) 2 = pin ∧ wordByte (fullWord pin h) 3 = crc8 (word3 pin h) ∧
    crc8 (fullWord pin h).toNat = 0x00

/-- R123: CFG_ENC, in every state, and its illegal headers. The rule's example, which it marks derived, stands in
FullWordFields. -/
def Obligations.CfgEncBuildsTheWord : Prop :=
  (∀ (pin : Byte) (h : Bool) (s : State) (w3 : Nat),
    w3 = 0x494F <<< 9 ||| (if h then 1 else 0) <<< 8 ||| pin.toNat →
      exec (.cfgEnc pin h) s = .next { s with
        crc := crcFeed 0x00 w3 (bitLength w3), lastErr := 0x00
        resp := s.resp ++ [.ok [BitVec.ofNat 32 (w3 <<< 8 ||| (crcFeed 0x00 w3 (bitLength w3)).toNat)]] }) ∧
  (∀ (pin : Byte) (h : Bool),
    encode (.cfgEnc pin h) = [(0x00000008 : Word) ||| pin.setWidth 32 <<< 8 ||| bitWord h <<< 16]) ∧
  RefusesReserved 0x08 0xFFFE00FF 0x00000008 0

/-- R124: CFG_DEC, in every state and on every word, valid or not; corner cases; illegal headers. -/
def Obligations.CfgDecExtractsTheFields : Prop :=
  (∀ (w : Word) (s : State), exec (.cfgDec w) s = .next { s with
    lastErr := 0x00
    resp := s.resp ++ [.ok [(w.extractLsb' 8 8).setWidth 32 ||| (if w.getLsbD 16 then 0x100 else 0)]] }) ∧
  (∀ w : Word, encode (.cfgDec w) = [0x00000009, w]) ∧
  RefusesReserved 0x09 0xFFFFFFFF 0x00000009 1 ∧
  cfgPin 0x00000000 = 0 ∧ cfgPinHigh 0x00000000 = false ∧ cfgPin 0xFFFFFFFF = 255 ∧ cfgPinHigh 0xFFFFFFFF = true ∧
  cfgPin 0x929E0500 = 5 ∧ cfgPinHigh 0x929E0500 = false ∧ cfgPin 0x929F0546 = 5 ∧ cfgPinHigh 0x929F0546 = true

/-- 41_cfgword.md section 3 (marked derived there): CFG_DEC of CFG_ENC's response gives back the pin and the polarity,
and distinct operands give distinct words. -/
def Obligations.CfgDecInvertsCfgEnc : Prop :=
  (∀ (pin : Byte) (h : Bool) (s : State), ∃ t u w,
    exec (.cfgEnc pin h) s = .next t ∧ t.resp = s.resp ++ [.ok [w]] ∧
    exec (.cfgDec w) t = .next u ∧ u.resp = t.resp ++ [.ok [cfgValue pin h]] ∧ u.crc = t.crc) ∧
  ∀ (pin pin' : Byte) (h h' : Bool), fullWord pin h = fullWord pin' h' → pin = pin' ∧ h = h'

/-! ## Records -/

/-- R147: the checksum formula; it is 0x00 exactly when the sum of the other fields is a multiple of 256. -/
def Obligations.ChecksumFormula : Prop :=
  ∀ (count : Byte) (addr : Half) (rtype : Byte) (data : List Byte) (total : Nat),
    total = count.toNat + (addr.extractLsb' 8 8).toNat + (addr.extractLsb' 0 8).toNat + rtype.toNat
      + (data.map BitVec.toNat).sum →
    (checksum count addr rtype data).toNat = (0x100 - total % 0x100) % 0x100 ∧
    (checksum count addr rtype data = 0x00 ↔ total % 256 = 0)

/-- 42_ihex_framer.md section 1 (marked derived there): in an open encode, FLUSH's checksum from the running sum is the
checksum formula on the record it emits; and EOF's fixed checksum is the formula's. -/
def Obligations.RunningSumGivesTheChecksum : Prop :=
  eofRecord.csum = checksum eofRecord.count eofRecord.addr eofRecord.rtype eofRecord.data ∧
  ∀ f : Framer, f.OpenLaw →
    f.currentRecord.csum =
      checksum f.currentRecord.count f.currentRecord.addr f.currentRecord.rtype f.currentRecord.data ∧
    f.currentRecord.ChecksumLaw ∧ f.currentRecord.CountLaw

/-- R146 and R149: the two records with fixed fields. That EOF's checksum is the formula's, which R149 marks derived,
stands in RunningSumGivesTheChecksum, and their texts, whose character codes are general knowledge, in
RecordTextIsHexOfItsBytes. -/
def Obligations.ElaAndEofRecords : Prop :=
  (∀ ob : Word, ob.toNat % 0x10000 = 0 → elaRecord ob =
    { count := 2, addr := 0x0000, rtype := 0x04, data := [ob.extractLsb' 24 8, ob.extractLsb' 16 8]
      csum := BitVec.ofNat 8
        ((0x100 - (0x06 + (ob.extractLsb' 24 8).toNat + (ob.extractLsb' 16 8).toNat) % 0x100) % 0x100) }) ∧
  elaRecord 0x80000000 = { count := 2, addr := 0, rtype := 4, data := [0x80, 0x00], csum := 0x7A } ∧
  eofRecord = { count := 0, addr := 0x0000, rtype := 0x01, data := [], csum := 0xFF }

/-- R144: PLACE, case by case, with what FLUSH emits (R145) written out. -/
def Obligations.PlaceOneStreamByte : Prop :=
  ∀ (f : Framer) (d : Byte) (rel : Nat) (r : Record),
    r = { count := f.rcnt.setWidth 8, addr := f.raddr, rtype := 0x00, data := f.rdata
          csum := BitVec.ofNat 8 ((0x100 - (f.rcnt.toNat + (f.raddr.extractLsb' 8 8).toNat
            + (f.raddr.extractLsb' 0 8).toNat + 0x00 + f.rsum.toNat) % 0x100) % 0x100) } →
    f.place d rel =
      if rel - f.offb.toNat = 0x10000 then
        { f with
          pend := f.pend ++ [r, elaRecord (BitVec.ofNat 32 rel)], offb := BitVec.ofNat 32 rel, raddr := 0
          rdata := [d], rcnt := 1, rsum := d }
      else if f.rcnt.toNat = f.cols.toNat then
        { f with
          pend := f.pend ++ [r], raddr := BitVec.ofNat 16 (rel - f.offb.toNat)
          rdata := [d], rcnt := 1, rsum := d }
      else { f with rdata := f.rdata ++ [d], rcnt := f.rcnt + 1, rsum := f.rsum + d }

/-- The record rows as instructions, in every state: REC_DATA flushes the current record, REC_EOF emits EOF, REC_ELA
emits ELA(OFFB), and nothing else changes. That a record row stands for its emission is the model's choice (log 8,
log 9). -/
def Obligations.RecordRowsEmitTheirRecord : Prop :=
  ∀ s : State,
    exec .recData s = .next { s with framer := { s.framer with
      pend := s.framer.pend ++ [{
        count := s.framer.rcnt.setWidth 8, addr := s.framer.raddr, rtype := 0x00, data := s.framer.rdata
        csum := BitVec.ofNat 8 ((0x100 - (s.framer.rcnt.toNat + (s.framer.raddr.extractLsb' 8 8).toNat
          + (s.framer.raddr.extractLsb' 0 8).toNat + 0x00 + s.framer.rsum.toNat) % 0x100) % 0x100) }]
      rcnt := 0, rdata := [], rsum := 0 } } ∧
    exec .recEof s = .next { s with framer := { s.framer with
      pend := s.framer.pend ++ [{ count := 0, addr := 0x0000, rtype := 0x01, data := [], csum := 0xFF }] } } ∧
    exec .recEla s = .next { s with framer := { s.framer with
      pend := s.framer.pend ++ [elaRecord s.framer.offb] } }

/-- 30_encoding.md section 3: the text of a record is ':' and two upper-case hexadecimal digits for each byte of its byte
form (marked derived there), so it has 1 + 2*(count + 5) characters; the character codes are the spec's general
knowledge (log 13). With the texts of the rules of 42_ihex_framer.md section 1, ':0200000480007A' and
':00000001FF'. -/
def Obligations.RecordTextIsHexOfItsBytes : Prop :=
  recordText (elaRecord 0x80000000) =
    [0x3A, 0x30, 0x32, 0x30, 0x30, 0x30, 0x30, 0x30, 0x34, 0x38, 0x30, 0x30, 0x30, 0x37, 0x41] ∧
  recordText eofRecord = [0x3A, 0x30, 0x30, 0x30, 0x30, 0x30, 0x30, 0x30, 0x31, 0x46, 0x46] ∧
  (∀ r : Record, recordText r =
    0x3A :: (recordBytes r).flatMap (fun b => [hexDigit (b.extractLsb' 4 4).toNat, hexDigit (b.extractLsb' 0 4).toNat])) ∧
  (∀ r : Record, r.CountLaw → (recordText r).length = 1 + 2 * (r.count.toNat + 5)) ∧
  (List.range 16).map hexDigit =
    [0x30, 0x31, 0x32, 0x33, 0x34, 0x35, 0x36, 0x37, 0x38, 0x39, 0x41, 0x42, 0x43, 0x44, 0x45, 0x46] ∧
  ∀ (r : Record) (c : Byte), c ∈ (recordText r).drop 1 →
    (0x30 ≤ c.toNat ∧ c.toNat ≤ 0x39) ∨ (0x41 ≤ c.toNat ∧ c.toNat ≤ 0x46)

/-- 30_encoding.md section 3: each record's text is followed by one line feed (0x0A), no carriage return is emitted, and
an encode's text ends ':00000001FF' and a line feed. The codes of ':00000001FF' are the spec's general knowledge, and
that of the carriage return, 0x0D, is the model's (log 13). -/
def Obligations.EveryLineEndsInOneLineFeed : Prop :=
  (∀ r : Record, render r = recordText r ++ [0x0A] ∧ 0x0A ∉ recordText r ∧ 0x0D ∉ render r) ∧
  ∀ (buf : List Byte) (base : Word) (columns : Byte) (p : Bool), ∃ front : List Byte,
    encodeText buf base columns p =
      front ++ [0x3A, 0x30, 0x30, 0x30, 0x30, 0x30, 0x30, 0x30, 0x31, 0x46, 0x46, 0x0A]

/-! ## The framer's commands -/

/-- R143: HEX_START, in every state and for all operands: its three errors in order, the framer it opens, register by
register, the size prefix placed byte by byte, its illegal headers, its example, and that the prefix fills no record and
crosses a segment boundary exactly from offset 0xFFFD on. -/
def Obligations.HexStartOpensAnEncode : Prop :=
  (∀ (columns : Byte) (p : Bool) (base n : Word) (s : State),
    s.framer.hstate = .active →
      exec (.hexStart columns p base n) s = .next (afterFramerError s .sequence 0x04)) ∧
  (∀ (columns : Byte) (p : Bool) (base n : Word) (s : State),
    s.framer.hstate = .idle → columns ≠ 16 → columns ≠ 32 →
      exec (.hexStart columns p base n) s = .next (afterFramerError s .invalidColumns 0x02)) ∧
  (∀ (columns : Byte) (p : Bool) (base n : Word) (s : State),
    s.framer.hstate = .idle → (columns = 16 ∨ columns = 32) →
    2 ^ 32 < base.toNat + (if p then 4 else 0) + n.toNat →
      exec (.hexStart columns p base n) s = .next (afterFramerError s .addressOverflow 0x03)) ∧
  (∀ (columns : Byte) (p : Bool) (base n : Word) (s : State) (ob : Word) (f : Framer),
    s.framer.hstate = .idle → (columns = 16 ∨ columns = 32) →
    base.toNat + (if p then 4 else 0) + n.toNat ≤ 2 ^ 32 →
    ob = BitVec.ofNat 32 (base.toNat - base.toNat % 0x10000) →
    f = { hstate := .active, cols := columns, pre := p, base := base, len := n, k := 0, offb := ob
          raddr := BitVec.ofNat 16 (base.toNat % 0x10000), rcnt := 0, rdata := [], rsum := 0
          pend := [elaRecord ob] } →
      exec (.hexStart columns p base n) s = .next { s with
        framer :=
          if p then
            (((f.place (n.extractLsb' 24 8) base.toNat).place (n.extractLsb' 16 8) (base.toNat + 1)).place
              (n.extractLsb' 8 8) (base.toNat + 2)).place (n.extractLsb' 0 8) (base.toNat + 3)
          else f
        lastErr := 0x00, resp := s.resp ++ [.ok []] }) ∧
  (∀ (columns : Byte) (p : Bool) (base n : Word), encode (.hexStart columns p base n) =
    [(0x00000010 : Word) ||| columns.setWidth 32 <<< 8 ||| bitWord p <<< 16, base, n]) ∧
  RefusesReserved 0x10 0xFFFE00FF 0x00000010 2 ∧
  (∀ s : State, s.framer.hstate = .idle → ∃ t, exec (.hexStart 16 false 0x80000000 3) s = .next t ∧
    t.framer.pend = [{ count := 2, addr := 0x0000, rtype := 0x04, data := [0x80, 0x00], csum := 0x7A }] ∧
    t.framer.raddr = 0x0000 ∧ t.framer.rcnt = 0) ∧
  ∀ (columns : Byte) (base n : Word) (s : State),
    s.framer.hstate = .idle → (columns = 16 ∨ columns = 32) → base.toNat + 4 + n.toNat ≤ 2 ^ 32 →
      ∃ t, exec (.hexStart columns true base n) s = .next t ∧ t.framer.rcnt.toNat ≤ 4 ∧
        t.framer.pend.length = if 0xFFFD ≤ base.toNat % 0x10000 then 3 else 1

/-- R150: HEX_BYTE, in every state: its two errors in order, the byte placed at BASE + 4*PRE + K, K counted, and its
illegal headers and its example. In a state that meets R38 the address is at most 0xFFFFFFFF. -/
def Obligations.HexBytePlacesOneByte : Prop :=
  (∀ (d : Byte) (s : State), s.framer.hstate = .idle →
    exec (.hexByte d) s = .next (afterFramerError s .sequence 0x04)) ∧
  (∀ (d : Byte) (s : State), s.framer.hstate = .active → s.framer.k = s.framer.len →
    exec (.hexByte d) s = .next (afterFramerError s .lengthMismatch 0x05)) ∧
  (∀ (d : Byte) (s : State) (rel : Nat), s.framer.hstate = .active → s.framer.k ≠ s.framer.len →
    rel = s.framer.base.toNat + 4 * s.framer.pre.toNat + s.framer.k.toNat →
    exec (.hexByte d) s = .next { s with
      framer := { s.framer.place d rel with k := s.framer.k + 1 }
      lastErr := 0x00, resp := s.resp ++ [.ok []] } ∧
    (s.framer.OpenLaw → rel ≤ 0xFFFFFFFF ∧ (s.framer.k + 1).toNat = s.framer.k.toNat + 1)) ∧
  (∀ d : Byte, encode (.hexByte d) = [(0x00000011 : Word) ||| d.setWidth 32 <<< 8]) ∧
  RefusesReserved 0x11 0xFFFF00FF 0x00000011 0 ∧
  ∀ s : State, s.framer.hstate = .idle → ∃ t, execAll [.hexStart 16 false 0x80000000 3, .hexByte 0x00] s = .next t ∧
    t.framer.rcnt = 1 ∧ t.framer.rdata = [0x00] ∧ t.framer.k = 1

/-- R151: HEX_END, in every state: its two errors in order, the last record flushed if there is one, EOF, PEND appended
to OUT whole, the framer at its IDLE values, the number of records in the response, its illegal headers, the empty
encode and the example. -/
def Obligations.HexEndDeliversTheRecords : Prop :=
  (∀ s : State, s.framer.hstate = .idle → exec .hexEnd s = .next (afterFramerError s .sequence 0x04)) ∧
  (∀ s : State, s.framer.hstate = .active → s.framer.k.toNat < s.framer.len.toNat →
    exec .hexEnd s = .next (afterFramerError s .lengthMismatch 0x05)) ∧
  (∀ (s : State) (rs : List Record), s.framer.hstate = .active → s.framer.len.toNat ≤ s.framer.k.toNat →
    rs = (if s.framer.rcnt = 0 then s.framer.pend else s.framer.flush.pend) ++ [eofRecord] →
    exec .hexEnd s = .next { s with
      framer := Framer.idle, out := s.out ++ rs, lastErr := 0x00
      resp := s.resp ++ [.ok [BitVec.ofNat 32 rs.length]] } ∧
    (s.framer.OpenLaw → 2 ≤ rs.length)) ∧
  encode .hexEnd = [0x00000012] ∧ RefusesReserved 0x12 0xFFFFFFFF 0x00000012 0 ∧
  (∀ s : State, s.framer.hstate = .idle → ∃ t, execAll [.hexStart 16 false 0x80000000 0, .hexEnd] s = .next t ∧
    lastWords t = some [0, 2] ∧ t.out = s.out ++ [elaRecord 0x80000000, eofRecord]) ∧
  ∀ s : State, s.framer.hstate = .idle → ∃ t,
    execAll [.hexStart 16 false 0x80000000 3, .hexByte 0x00, .hexByte 0x01, .hexByte 0x02, .hexEnd] s = .next t ∧
    lastWords t = some [0, 3] ∧
    t.out = s.out ++ [{ count := 2, addr := 0x0000, rtype := 0x04, data := [0x80, 0x00], csum := 0x7A },
      { count := 3, addr := 0x0000, rtype := 0x00, data := [0x00, 0x01, 0x02], csum := 0xFA },
      { count := 0, addr := 0x0000, rtype := 0x01, data := [], csum := 0xFF }]

/-- R152: HEX_ABORT, in every state; a no-op on an IDLE framer at its IDLE values; its illegal
headers and its example. -/
def Obligations.HexAbortDiscardsTheEncode : Prop :=
  (∀ s : State, exec .hexAbort s = .next { s with
    framer := Framer.idle, lastErr := 0x00, resp := s.resp ++ [.ok []] }) ∧
  (∀ s : State, s.Inv → s.framer.hstate = .idle → exec .hexAbort s = .next { s with
    lastErr := 0x00, resp := s.resp ++ [.ok []] }) ∧
  encode .hexAbort = [0x00000013] ∧ RefusesReserved 0x13 0xFFFFFFFF 0x00000013 0 ∧
  ∀ s : State, s.framer.hstate = .idle → ∃ t,
    execAll [.hexStart 16 false 0 5, .hexByte 1, .hexAbort] s = .next t ∧
    t.framer.hstate = .idle ∧ t.out = s.out ∧ t.crc = s.crc

/-! ## Control -/

/-- R190: STATUS, in every state; it writes no register, not even LAST_ERR; after reset it reads zeros; its illegal
headers do write LAST_ERR; after a failing command it shows that command's code; its example. -/
def Obligations.StatusReadsTheWords : Prop :=
  (∀ s : State, exec .status s = .next { s with
    resp := s.resp ++ [.ok [
      s.framer.rcnt.setWidth 32 <<< 24 ||| s.crc.setWidth 32 <<< 16 ||| s.lastErr.setWidth 32 <<< 8
        ||| (if s.framer.cols = 32 then 0x00000004 else 0) ||| (if s.framer.pre then 0x00000002 else 0)
        ||| (if s.framer.hstate = .active then 0x00000001 else 0),
      s.framer.k]] }) ∧
  exec .status State.reset = .next { State.reset with resp := [.ok [0x00000000, 0x00000000]] } ∧
  encode .status = [0x00000020] ∧ RefusesReserved 0x20 0xFFFFFFFF 0x00000020 0 ∧
  (∀ (i : Instr) (s t : State) (e : ErrCode), i.wellFormed = true → exec i s = .next t →
    t.resp = s.resp ++ [.err e] → (statusS0 t).extractLsb' 8 8 = e.code) ∧
  ∃ t, execAll [.hexStart 16 true 0x80000000 2, .status] State.reset = .next t ∧
    lastWords t = some [0, 0x04000003, 0]

/-- R36: each field of the status words, in every state; all framer fields read 0 when IDLE. -/
def Obligations.StatusWordFields : Prop :=
  (∀ s : State,
    (statusS0 s).getLsbD 0 = decide (s.framer.hstate = .active) ∧ (statusS0 s).getLsbD 1 = s.framer.pre ∧
    (statusS0 s).getLsbD 2 = decide (s.framer.cols = 32) ∧ (statusS0 s).extractLsb' 3 5 = 0 ∧
    (statusS0 s).extractLsb' 8 8 = s.lastErr ∧ (statusS0 s).extractLsb' 16 8 = s.crc ∧
    (statusS0 s).extractLsb' 24 8 = s.framer.rcnt.setWidth 8 ∧ statusS1 s = s.framer.k) ∧
  ∀ s : State, s.Inv → s.framer.hstate = .idle →
    statusS0 s = s.crc.setWidth 32 <<< 16 ||| s.lastErr.setWidth 32 <<< 8 ∧ statusS1 s = 0

/-- R191: RESET, in every state: every register at its reset value, OUT untouched; its illegal headers reset
nothing. -/
def Obligations.ResetCommandResetsTheRegisters : Prop :=
  (∀ s : State, exec .reset s = .next { s with
    crc := State.reset.crc, framer := State.reset.framer, lastErr := State.reset.lastErr
    resp := s.resp ++ [.ok []] }) ∧
  encode .reset = [0x0000003F] ∧ RefusesReserved 0x3F 0xFFFFFFFF 0x0000003F 0 ∧
  ∀ s : State, ∃ t, execAll [.crcBit true, .reset, .crcRd] s = .next t ∧ lastWords t = some [0, 0]

/-- R230: the reset value of every register; the reset state meets R37, and STATUS after reset reads zeros. -/
def Obligations.ResetValues : Prop :=
  State.reset.crc = 0x00 ∧ State.reset.framer.hstate = .idle ∧ State.reset.framer.cols = 0 ∧
  State.reset.framer.pre = false ∧ State.reset.framer.base = 0x00000000 ∧ State.reset.framer.len = 0x00000000 ∧
  State.reset.framer.k = 0 ∧ State.reset.framer.offb = 0x00000000 ∧ State.reset.framer.raddr = 0x0000 ∧
  State.reset.framer.rcnt = 0 ∧ State.reset.framer.rdata = [] ∧ State.reset.framer.rsum = 0x00 ∧
  State.reset.framer.pend = [] ∧ State.reset.lastErr = 0x00 ∧ State.reset.framer.IdleLaw ∧
  statusS0 State.reset = 0x00000000 ∧ statusS1 State.reset = 0x00000000

/-- 70_reset_and_hazards.md section 1: asserting the reset input between commands, or while the words of a command are
still arriving, sets every register to its reset value, throws those words away, leaves OUT alone, and the next word is
read as a header; the RESET command sets the same registers. That the reset input stands at its place in the list of
inputs and sends no response is the model's choice (log 3), and that it leaves the command count too (log 4). -/
def Obligations.ResetInputThrowsAwayAPartialCommand : Prop :=
  (∀ (s : State) (ws : List Word) (rest : List Input), decode ws = .incomplete →
    s.input = ws.map Input.word ++ Input.resetPin :: rest →
    step s = .next { s with
      crc := State.reset.crc, framer := State.reset.framer, lastErr := State.reset.lastErr, input := rest }) ∧
  ∀ s : State, ∃ t, exec .reset s = .next t ∧
    t.crc = State.reset.crc ∧ t.framer = State.reset.framer ∧ t.lastErr = State.reset.lastErr ∧ t.out = s.out

/-- R192: every command but STATUS writes LAST_ERR, the code of its own response, an illegal one too; STATUS leaves it;
and no other command's result depends on what LAST_ERR was. -/
def Obligations.LastErrHoldsTheResult : Prop :=
  (∀ (i : Instr) (s : State), i.wellFormed = true → ∃ t r, exec i s = .next t ∧ t.resp = s.resp ++ [r] ∧
    t.lastErr = (if i = .status then s.lastErr else r.code) ∧ ((∃ vs, r = .ok vs) ↔ r.code = 0x00)) ∧
  (∀ (s : State) (why : Illegal) (used : Nat), decode (arrivedWords s.input) = .illegal why used →
    ∃ t, step s = .next t ∧ t.resp = s.resp ++ [.err .illegalCmd] ∧ t.lastErr = 0x01) ∧
  (∀ (i : Instr) (s : State) (v : Byte), i.wellFormed = true → i ≠ .status →
    exec i { s with lastErr := v } = exec i s) ∧
  ∀ (s : State) (v : Byte), ∃ t, exec .status { s with lastErr := v } = .next t ∧
    t.crc = s.crc ∧ t.framer = s.framer ∧ t.out = s.out

/-- R193: a command of the CRC unit neither reads nor writes the framer and OUT, a framer command neither reads nor
writes CRC, and executing one of each in either order leaves the same CRC, framer and OUT. -/
def Obligations.UnitsAreIndependent : Prop :=
  (∀ (i : Instr) (s : State) (f : Framer), IsCrcUnit i = true → ∃ t, exec i s = .next t ∧
    t.framer = s.framer ∧ t.out = s.out ∧ exec i { s with framer := f } = .next { t with framer := f }) ∧
  (∀ (i : Instr) (s : State) (c : Byte), IsFramerUnit i = true → ∃ t, exec i s = .next t ∧
    t.crc = s.crc ∧ exec i { s with crc := c } = .next { t with crc := c }) ∧
  ∀ (i j : Instr) (s : State), IsCrcUnit i = true → IsFramerUnit j = true → ∃ t u,
    execAll [i, j] s = .next t ∧ execAll [j, i] s = .next u ∧
    t.crc = u.crc ∧ t.framer = u.framer ∧ t.out = u.out

/-- 43_control.md section 2 (marked derived there): a step whose words make a complete command, legal or not, sends
exactly one response; by 10_state.md section 1 it moves on by one command. That the step of every state, a waiting one
too, answers a next state is the model's: a wait answers the same state (log 2), and no step faults (log 10). -/
def Obligations.EveryCommandGetsOneResponse : Prop :=
  (∀ s : State, ∃ t, step s = .next t) ∧
  ∀ s : State, decode (arrivedWords s.input) ≠ .incomplete →
    ∃ t r, step s = .next t ∧ t.resp = s.resp ++ [r] ∧ t.pos = s.pos + 1

/-! ## Errors and encoding -/

/-- 60_exceptions.md section 1: the codes, and that LAST_ERR never holds one above 0x05. -/
def Obligations.ErrorCodesStayLegal : Prop :=
  ErrCode.illegalCmd.code = 0x01 ∧ ErrCode.invalidColumns.code = 0x02 ∧ ErrCode.addressOverflow.code = 0x03 ∧
  ErrCode.sequence.code = 0x04 ∧ ErrCode.lengthMismatch.code = 0x05 ∧ State.reset.lastErr.toNat ≤ 5 ∧
  ∀ s t : State, s.lastErr.toNat ≤ 5 → step s = .next t → t.lastErr.toNat ≤ 5

/-- R202: SEQUENCE is the response of exactly these commands in these states. -/
def Obligations.SequenceErrors : Prop :=
  ∀ (i : Instr) (s : State), i.wellFormed = true → ∃ t r, exec i s = .next t ∧ t.resp = s.resp ++ [r] ∧
    (r = .err .sequence ↔
      ((∃ columns p base n, i = .hexStart columns p base n) ∧ s.framer.hstate = .active) ∨
      ((∃ d, i = .hexByte d) ∧ s.framer.hstate = .idle) ∨
      (i = .hexEnd ∧ s.framer.hstate = .idle))

/-- R204: an illegal command changes LAST_ERR alone, whatever the framer's state; a framer error puts the framer to its
IDLE values and leaves CRC and OUT; a HEX_START that fails while IDLE leaves the framer as it was. -/
def Obligations.ErrorEffects : Prop :=
  (∀ (s : State) (why : Illegal) (used : Nat), decode (arrivedWords s.input) = .illegal why used →
    step s = .next { s with
      lastErr := 0x01, input := s.input.drop used, pos := s.pos + 1, resp := s.resp ++ [.err .illegalCmd] }) ∧
  (∀ (i : Instr) (s t : State) (e : ErrCode), i.wellFormed = true → exec i s = .next t →
    t.resp = s.resp ++ [.err e] → e ≠ .illegalCmd ∧ t = { s with
      framer := Framer.idle, lastErr := e.code, resp := s.resp ++ [.err e] }) ∧
  ∀ (columns : Byte) (p : Bool) (base n : Word) (s t : State) (e : ErrCode), s.Inv → s.framer.hstate = .idle →
    exec (.hexStart columns p base n) s = .next t → t.resp = s.resp ++ [.err e] → t.framer = s.framer

/-- R205: of the errors that apply, a command reports the first of the order ILLEGAL_CMD, SEQUENCE, INVALID_COLUMNS,
ADDRESS_OVERFLOW, LENGTH_MISMATCH. -/
def Obligations.ErrorPriority : Prop :=
  (∀ (columns : Byte) (p : Bool) (base n : Word) (s : State), ∃ t r,
    exec (.hexStart columns p base n) s = .next t ∧ t.resp = s.resp ++ [r] ∧
    r = if s.framer.hstate = .active then .err .sequence
        else if ¬(columns = 16 ∨ columns = 32) then .err .invalidColumns
        else if 2 ^ 32 < base.toNat + (if p then 4 else 0) + n.toNat then .err .addressOverflow
        else .ok []) ∧
  (∀ (d : Byte) (s : State), ∃ t r, exec (.hexByte d) s = .next t ∧ t.resp = s.resp ++ [r] ∧
    r = if s.framer.hstate = .idle then .err .sequence
        else if s.framer.k = s.framer.len then .err .lengthMismatch
        else .ok []) ∧
  (∀ s : State, ∃ t r, exec .hexEnd s = .next t ∧ t.resp = s.resp ++ [r] ∧
    (s.framer.hstate = .idle → r = .err .sequence) ∧
    (s.framer.hstate = .active → s.framer.k.toNat < s.framer.len.toNat → r = .err .lengthMismatch) ∧
    (s.framer.hstate = .active → s.framer.len.toNat ≤ s.framer.k.toNat → ∃ c, r = .ok [c])) ∧
  ∀ (s : State) (h : Word) (rest : List Input), opField h = 0x11 → fieldB h ≠ 0 → Sends s [h] rest →
    step s = .next (afterIllegal s rest)

/-- R74: a header selects a command iff its fixed bits are those of the command's row; a header of an assigned opcode
that selects none is consumed with the operand words its opcode calls for and raises ILLEGAL_CMD. -/
def Obligations.ReservedBitsAreIllegal : Prop :=
  (∀ (h w1 w2 : Word) (r : Row), r ∈ opTable → (h &&& r.mask = r.value ↔
    decodeCommand h w1 w2 = .instr (assembleOperands r.op h w1 w2) (1 + operandWords h))) ∧
  ∀ (s : State) (h : Word) (ws : List Word) (rest : List Input),
    assignedOp (opField h) = true → (∀ r ∈ opTable, h &&& r.mask ≠ r.value) → ws.length = operandWords h →
    Sends s (h :: ws) rest → step s = .next (afterIllegal s rest)

/-- R75: a header of an unassigned opcode is consumed alone and raises ILLEGAL_CMD, 0x00 and 0xFF among them; every
header is either of exactly one row or illegal. -/
def Obligations.UnassignedOpcodesAreIllegal : Prop :=
  (∀ (s : State) (h : Word) (rest : List Input),
    opField h ∉ ([0x01, 0x02, 0x03, 0x04, 0x08, 0x09, 0x10, 0x11, 0x12, 0x13, 0x20, 0x3F] : List Byte) →
    Sends s [h] rest → step s = .next (afterIllegal s rest)) ∧
  (∀ h w1 w2 : Word,
    ((∃ r, r ∈ opTable ∧ r.selects h = true ∧ ∀ r' ∈ opTable, r'.selects h = true → r' = r) ∧
      ∃ i used, decodeCommand h w1 w2 = .instr i used) ∨
    ((∀ r ∈ opTable, r.selects h = false) ∧ ∃ why used, decodeCommand h w1 w2 = .illegal why used))

/-- 30_encoding.md section 1: the number of operand words, from the opcode alone; a complete command never waits; a
command whose words have not all arrived waits, with no response and no state change. That a wait is a step that answers
the same state, with nothing sent too, is the model's choice (log 2). -/
def Obligations.CommandLengthFromTheOpcode : Prop :=
  (∀ h : Word, operandWords h =
    if opField h = 0x03 ∨ opField h = 0x09 then 1 else if opField h = 0x10 then 2 else 0) ∧
  (∀ (h : Word) (ws : List Word), operandWords h ≤ ws.length → decode (h :: ws) ≠ .incomplete) ∧
  (∀ (s : State) (h : Word) (ws : List Word), ws.length < operandWords h → Sends s (h :: ws) [] →
    step s = .next s) ∧
  ∀ s : State, s.input = [] → step s = .next s

/-- R77: the words of every response: P0 with the code in its low byte and zeros above, then the values, for OK only. -/
def Obligations.ResponseWords : Prop :=
  (∀ r : Response, ∃ p0 vs, r.words = p0 :: vs ∧ p0.extractLsb' 0 8 = r.code ∧ p0.extractLsb' 8 24 = 0 ∧
    ((∃ e, r = .err e) → vs = [])) ∧
  (∀ (x : Word) (s : State), ∃ t, exec (.crcInt x) s = .next t ∧
    lastWords t = some [0, (crc8 x.toNat).setWidth 32]) ∧
  (∀ s : State, ∃ t, exec .crcRd s = .next t ∧ lastWords t = some [0, s.crc.setWidth 32]) ∧
  (∀ (pin : Byte) (h : Bool) (s : State), ∃ t, exec (.cfgEnc pin h) s = .next t ∧
    lastWords t = some [0, fullWord pin h]) ∧
  (∀ (w : Word) (s : State), ∃ t v, exec (.cfgDec w) s = .next t ∧ lastWords t = some [0, v] ∧
    v.extractLsb' 0 8 = cfgPin w ∧ v.getLsbD 8 = cfgPinHigh w ∧ v.extractLsb' 9 23 = 0) ∧
  (∀ s : State, s.framer.hstate = .active → s.framer.len.toNat ≤ s.framer.k.toNat → ∃ t rs,
    exec .hexEnd s = .next t ∧ t.out = s.out ++ rs ∧ lastWords t = some [0, BitVec.ofNat 32 rs.length]) ∧
  (∀ s : State, ∃ t, exec .status s = .next t ∧ lastWords t = some [0, statusS0 s, statusS1 s]) ∧
  ∀ (i : Instr) (s : State), i = .crcClr ∨ (∃ v, i = .crcBit v) ∨ (∃ columns p base n, i = .hexStart columns p base n)
      ∨ (∃ d, i = .hexByte d) ∨ i = .hexAbort ∨ i = .reset →
    ∃ t p0, exec i s = .next t ∧ lastWords t = some [p0]

/-- Decoding an encoded command gives it back, with every operand at every value, and takes up exactly its words,
whatever follows them (30_encoding.md sections 1 and 4). -/
def Obligations.DecodeOfEncode : Prop :=
  ∀ (i : Instr) (rest : List Word), i.wellFormed = true →
    decode (encode i ++ rest) = .instr i (encode i).length

/-- A word sequence that decodes to a command begins with exactly that command's words: every command has one
encoding (30_encoding.md sections 1 and 2). -/
def Obligations.EncodeOfDecode : Prop :=
  ∀ (ws : List Word) (i : Instr) (used : Nat), decode ws = .instr i used →
    i.wellFormed = true ∧ used = (encode i).length ∧ ∃ rest, ws = encode i ++ rest

/-- 30_encoding.md section 4: the words of a command line, and that an operand that does not fit its field is
rejected; CRC_FEED takes an x of any size. -/
def Obligations.AssemblerChecksItsOperands : Prop :=
  (∀ v, assembleWords (.crcBit v) = if v < 2 then some [BitVec.ofNat 32 (0x00000002 ||| v <<< 8)] else none) ∧
  (∀ x, assembleWords (.crcInt x) = if x < 2 ^ 32 then some [0x00000003, BitVec.ofNat 32 x] else none) ∧
  (∀ pin h, assembleWords (.cfgEnc pin h) =
    if pin < 256 ∧ h < 2 then some [BitVec.ofNat 32 (0x00000008 ||| pin <<< 8 ||| h <<< 16)] else none) ∧
  (∀ w, assembleWords (.cfgDec w) = if w < 2 ^ 32 then some [0x00000009, BitVec.ofNat 32 w] else none) ∧
  (∀ columns p base n, assembleWords (.hexStart columns p base n) =
    if columns < 256 ∧ p < 2 ∧ base < 2 ^ 32 ∧ n < 2 ^ 32 then
      some [BitVec.ofNat 32 (0x00000010 ||| columns <<< 8 ||| p <<< 16), BitVec.ofNat 32 base, BitVec.ofNat 32 n]
    else none) ∧
  (∀ d, assembleWords (.hexByte d) = if d < 256 then some [BitVec.ofNat 32 (0x00000011 ||| d <<< 8)] else none) ∧
  ∀ x w, assembleWords (.crcFeed x w) =
    if 1 ≤ w ∧ w ≤ 32 then some ((List.range w).reverse.map fun i => if x.testBit i then 0x00000102 else 0x00000002)
    else none

/-- When the words at the command port decode to a command, the step is that command's, on the state that has consumed
its words and moved on by one in the host's command sequence (10_state.md section 1). -/
def Obligations.StepRunsTheDecodedCommand : Prop :=
  ∀ (s : State) (i : Instr) (used : Nat), decode (arrivedWords s.input) = .instr i used →
    step s = exec i { s with input := s.input.drop used, pos := s.pos + 1 }

/-- Header words written out from 30_encoding.md section 4 and 95_test_vectors.md section 4 decode to their commands, and
two of 95_test_vectors.md section 5 to the refusals of 30_encoding.md section 2. -/
def Obligations.WrittenWordsDecode : Prop :=
  decode [0x00000102] = .instr (.crcBit true) 1 ∧ decode [0x00000003, 0x0000947D] = .instr (.crcInt 0x947D) 2 ∧
  decode [0x00015A08] = .instr (.cfgEnc 0x5A true) 1 ∧
  decode [0x00011010, 0x0000FFFE, 0x00000002] = .instr (.hexStart 16 true 0xFFFE 2) 3 ∧
  decode [0x0000BB11] = .instr (.hexByte 0xBB) 1 ∧ decode [0x0000003F] = .instr .reset 1 ∧
  decode [0x00000202] = .illegal (.reservedBits 0x02) 1 ∧ decode [0x0000000F] = .illegal (.unassignedOp 0x0F) 1

/-! ## The whole machine -/

/-- R37: an IDLE framer is at its IDLE values, and every step keeps that. -/
def Obligations.IdleFramerStaysAtItsResetValues : Prop :=
  ∀ s t : State, s.framer.IdleLaw → step s = .next t → t.framer.IdleLaw

/-- 10_state.md section 5 (R38, marked derived there): the invariant of an open encode, with R37, is kept by every
step. -/
def Obligations.EveryStepKeepsTheInvariant : Prop :=
  ∀ s t : State, s.Inv → step s = .next t → t.Inv

/-- 42_ihex_framer.md section 4 and 30_encoding.md section 3: no step puts a record on PEND or OUT that is not one of
the three kinds, with a right count and checksum, and within its segment. -/
def Obligations.EveryStepKeepsTheRecordsSound : Prop :=
  ∀ s t : State, s.Inv → s.RecordsSound → step s = .next t → t.RecordsSound

/-- The reset state meets the invariants. -/
def Obligations.ResetMeetsTheInvariants : Prop := State.reset.Inv ∧ State.reset.RecordsSound

/-- 10_state.md section 6: OUT only grows, and only by a HEX_END that answers OK, which appends all of PEND, closed by
EOF, and the count of it. -/
def Obligations.OutGrowsOnlyAtHexEnd : Prop :=
  ∀ s t : State, step s = .next t → t.out = s.out ∨
    ∃ used, decode (arrivedWords s.input) = .instr .hexEnd used ∧ s.framer.hstate = .active ∧
      t.out = s.out ++ s.framer.closed.pend ∧
      t.resp = s.resp ++ [.ok [BitVec.ofNat 32 s.framer.closed.pend.length]]

/-- 10_state.md section 2 and 70_reset_and_hazards.md section 3: only CRC_CLR, CRC_BIT, CRC_INT, CFG_ENC and reset write
CRC; an illegal command and a wait do not. -/
def Obligations.OnlyListedCommandsWriteCrc : Prop :=
  (∀ (i : Instr) (s t : State), WritesCrc i = false → exec i s = .next t → t.crc = s.crc) ∧
  ∀ s t : State, step s = .next t → t.crc = s.crc ∨ (∃ rest, fetch s.input = .resetPin rest) ∨
    ∃ i used, fetch s.input = .command i used ∧ WritesCrc i = true

/-- 10_state.md section 3: only a HEX_START that answers OK opens an encode, and only HEX_END, HEX_ABORT, a framer error
or reset closes one. -/
def Obligations.OnlyFramerCommandsOpenAndClose : Prop :=
  (∀ s t : State, step s = .next t → s.framer.hstate = .idle → t.framer.hstate = .active →
    ∃ columns p base n used, fetch s.input = .command (.hexStart columns p base n) used ∧
      t.resp = s.resp ++ [.ok []]) ∧
  ∀ s t : State, step s = .next t → s.framer.hstate = .active → t.framer.hstate = .idle →
    (∃ rest, fetch s.input = .resetPin rest) ∨ (∃ used, fetch s.input = .command .hexEnd used) ∨
    (∃ used, fetch s.input = .command .hexAbort used) ∨ (∃ used, fetch s.input = .command .reset used) ∨
    ∃ i used e, fetch s.input = .command i used ∧ IsFramerUnit i = true ∧ t.resp = s.resp ++ [.err e]

/-! ## A whole encode -/

/-- 42_ihex_framer.md section 1 (marked derived there): from any IDLE state that meets the invariant, the commands of
HEX_ENCODE deliver exactly ihex_encode of their arguments on OUT, count them in the last response, and leave the framer
IDLE and CRC alone. -/
def Obligations.HexEncodeDeliversIhexEncode : Prop :=
  ∀ (buf : List Byte) (base : Word) (columns : Byte) (p : Bool) (s : State),
    Encodable buf base columns p → s.Inv → s.framer.hstate = .idle →
    execAll (hexEncodeCommands columns p base buf) s = .next { s with
      out := s.out ++ ihexEncode buf base columns p, lastErr := 0x00
      resp := s.resp ++ List.replicate (buf.length + 1) (.ok [])
        ++ [.ok [BitVec.ofNat 32 (ihexEncode buf base columns p).length]] }

/-- 42_ihex_framer.md section 4 (marked derived there): an encode is an ELA record, then data and ELA records, then one
EOF; no two ELA records are adjacent; a data record before an ELA record ends at its segment's end. -/
def Obligations.EncodeShape : Prop :=
  ∀ (buf : List Byte) (base : Word) (columns : Byte) (p : Bool), Encodable buf base columns p →
    ∃ first mid, ihexEncode buf base columns p = first :: mid ++ [eofRecord] ∧ first.IsEla ∧
      (∀ r ∈ mid, r.IsData ∨ r.IsEla) ∧
      (∀ a b front back, first :: mid = front ++ a :: b :: back → b.IsEla →
        a.IsData ∧ a.addr.toNat + a.count.toNat = 0x10000)

/-- 42_ihex_framer.md section 4 (marked derived there): an encode that stays in one segment has one ELA record,
ceil(N / columns) data records, all full but the last, and EOF. -/
def Obligations.RecordCountInOneSegment : Prop :=
  ∀ (buf : List Byte) (base : Word) (columns : Byte) (p : Bool) (n m : Nat), Encodable buf base columns p →
    n = buf.length + (if p then 4 else 0) → base.toNat % 0x10000 + n ≤ 0x10000 →
    m = (n + columns.toNat - 1) / columns.toNat →
    ∃ first mid, ihexEncode buf base columns p = first :: mid ++ [eofRecord] ∧ first.IsEla ∧
      (∀ r ∈ mid, r.IsData) ∧ mid.length = m ∧
      (0 < n → mid.map (fun r => r.count.toNat) =
        List.replicate (m - 1) columns.toNat ++ [n - columns.toNat * (m - 1)])

/-- 42_ihex_framer.md section 4 (marked derived there): one ELA record for each segment the stream touches, or one if
the stream is empty, naming them in increasing order from base >> 16. -/
def Obligations.OneElaPerSegment : Prop :=
  ∀ (buf : List Byte) (base : Word) (columns : Byte) (p : Bool) (n : Nat), Encodable buf base columns p →
    n = buf.length + (if p then 4 else 0) →
    (elaRecords (ihexEncode buf base columns p)).map (fun r => r.data.map BitVec.toNat) =
      (List.range ((base.toNat + (n - 1)) / 0x10000 - base.toNat / 0x10000 + 1)).map
        (fun i => [(base.toNat / 0x10000 + i) / 256, (base.toNat / 0x10000 + i) % 256])

/-- 20_memory.md section 1 and 42_ihex_framer.md section 4 (marked derived there): reading an encode's records back
places exactly the stream, byte j at base + j, in order, and nothing else. -/
def Obligations.EncodeReadsBackAsTheStream : Prop :=
  ∀ (buf : List Byte) (base : Word) (columns : Byte) (p : Bool), Encodable buf base columns p →
    readBack 0 (ihexEncode buf base columns p) =
      placedFrom base.toNat
        ((if p then
          [(bufLen buf).extractLsb' 24 8, (bufLen buf).extractLsb' 16 8, (bufLen buf).extractLsb' 8 8,
            (bufLen buf).extractLsb' 0 8]
          else []) ++ buf)

/-- 42_ihex_framer.md section 4 (marked derived there): the encode of an empty buffer, without and with the prefix, a
prefix that crosses a segment boundary among them. -/
def Obligations.EmptyBufferEncode : Prop :=
  ∀ (base : Word) (columns : Byte) (lead : Nat) (ob : Word), lead = base.toNat % 0x10000 →
    ob = BitVec.ofNat 32 (base.toNat - lead) →
    ihexEncode [] base columns false = [elaRecord ob, eofRecord] ∧
    (Encodable [] base columns true → lead ≤ 0xFFFC →
      ∃ c, ihexEncode [] base columns true =
        [elaRecord ob, { count := 4, addr := BitVec.ofNat 16 lead, rtype := 0, data := [0, 0, 0, 0], csum := c },
          eofRecord]) ∧
    (Encodable [] base columns true → ∀ m, lead = 0x10000 - m → 1 ≤ m → m ≤ 3 →
      ∃ c c', ihexEncode [] base columns true =
        [elaRecord ob,
          { count := BitVec.ofNat 8 m, addr := BitVec.ofNat 16 lead, rtype := 0, data := List.replicate m 0, csum := c },
          elaRecord (ob + 0x10000),
          { count := BitVec.ofNat 8 (4 - m), addr := 0, rtype := 0, data := List.replicate (4 - m) 0, csum := c' },
          eofRecord])
end

