-- ==== Sys2Proof/Laws/Crc.lean ====
section
/-! SUPPORT. The CRC register: a zero register ignores zero bits, feeding splits, and the step is linear. -/

namespace Sys2Proof.Machine

@[simp] theorem crcFeed_zero (r : Byte) (x : Nat) : crcFeed r x 0 = r := rfl

@[simp] theorem crcFeed_succ (r : Byte) (x l : Nat) :
    crcFeed r x (l + 1) = crcFeed (crcStep r (x.testBit l)) x l := rfl

/-- A zero register ignores a zero bit (R106). -/
@[simp] theorem crcStep_zero_false : crcStep 0 false = 0 := rfl

/-- The step is linear over GF(2) in the register and the bit together. -/
theorem crcStep_xor (r q : Byte) (v u : Bool) : crcStep (r ^^^ q) (v ^^ u) = crcStep r v ^^^ crcStep q u := by
  have hmask : ∀ b c : Bool, (if (b ^^ c) then Config.poly else 0) =
      (if b then Config.poly else 0) ^^^ (if c then Config.poly else 0) := by decide
  have hbits : ((v ^^ u) ^^ (r ^^^ q).getLsbD 7) = ((v ^^ r.getLsbD 7) ^^ (u ^^ q.getLsbD 7)) := by
    simp only [BitVec.getLsbD_xor]
    cases v <;> cases u <;> cases r.getLsbD 7 <;> cases q.getLsbD 7 <;> rfl
  simp only [crcStep, hbits, hmask, BitVec.shiftLeft_xor_distrib]
  ac_rfl

/-- Feeding is linear over GF(2) in the register and the fed number together. -/
theorem crcFeed_xor (r q : Byte) (a b l : Nat) :
    crcFeed (r ^^^ q) (a ^^^ b) l = crcFeed r a l ^^^ crcFeed q b l := by
  induction l generalizing r q with
  | zero => rfl
  | succ l ih => simp only [crcFeed_succ, Nat.testBit_xor, crcStep_xor, ih]

/-- Feeding reads only the low bits of the number. -/
theorem crcFeed_congr {r : Byte} {a b l : Nat} (h : ∀ i < l, a.testBit i = b.testBit i) :
    crcFeed r a l = crcFeed r b l := by
  induction l generalizing r with
  | zero => rfl
  | succ l ih =>
    rw [crcFeed_succ, crcFeed_succ, h l (Nat.lt_succ_self l)]
    exact ih fun i hi => h i (Nat.lt_succ_of_lt hi)

/-- Feeding l + m bits of a number is feeding its high l bits and then its low m bits. -/
theorem crcFeed_add (r : Byte) (x m l : Nat) : crcFeed r x (l + m) = crcFeed (crcFeed r (x >>> m) l) x m := by
  induction l generalizing r with
  | zero => simp
  | succ l ih =>
    rw [Nat.add_right_comm, crcFeed_succ, crcFeed_succ, ih, Nat.testBit_shiftRight, Nat.add_comm l m]

/-- A number has no bit at or above its bit length. -/
theorem lt_two_pow_bitLength (x : Nat) : x < 2 ^ bitLength x := by
  unfold bitLength
  split_ifs with h
  · subst h; decide
  · exact Nat.lt_log2_self

end Sys2Proof.Machine
end

