-- ==== Sys2Proof/Laws/Decode.lean ====
section
/-! SUPPORT. The decoder: no header selects two rows, what selecting a row means for the opcode field, and the answers
of `decode` on a header with its operand words. -/

namespace Sys2Proof

/-- Some fixed bit tells two rows apart. -/
abbrev Row.Apart (r r' : Row) : Prop := (r.value ^^^ r'.value) &&& (r.mask &&& r'.mask) ≠ 0

/-- The rows of the opcode table are pairwise apart (R75: at most one row). -/
theorem opTable_pairwise_apart : opTable.Pairwise Row.Apart := by decide

/-- Rows that are apart select no common header. -/
theorem Row.Apart.not_both {r r' : Row} {h : Word} (hr : r.Apart r') (h1 : r.selects h = true)
    (h2 : r'.selects h = true) : False := by
  simp only [Row.selects, beq_iff_eq] at h1 h2
  refine hr ?_
  rw [← h1, ← h2]
  ext i hi
  simp only [BitVec.getElem_and, BitVec.getElem_xor, BitVec.ofNat_eq_ofNat, BitVec.getElem_zero]
  cases h[i] <;> cases r.mask[i] <;> cases r'.mask[i] <;> rfl

/-- A list of pairwise apart rows is searched without ambiguity. -/
theorem find?_selects {rows : List Row} (hp : rows.Pairwise Row.Apart) {r : Row} {h : Word} (hm : r ∈ rows)
    (hs : r.selects h = true) : rows.find? (·.selects h) = some r := by
  induction rows with
  | nil => cases hm
  | cons r' rows ih =>
    rw [List.find?_cons]
    rcases List.mem_cons.mp hm with rfl | hm'
    · simp [hs]
    · have hne : r'.selects h = false := by
        by_contra hc
        exact ((List.pairwise_cons.mp hp).1 r hm').not_both (by simpa using hc) hs
      simp only [hne]
      exact ih (List.pairwise_cons.mp hp).2 hm'

/-- A header that has a row's fixed bits selects it (R74). -/
theorem selectRow_of_selects {r : Row} {h : Word} (hm : r ∈ opTable) (hs : r.selects h = true) :
    selectRow h = some r :=
  find?_selects opTable_pairwise_apart hm hs

/-- The row found is a row of the table and has the header's fixed bits. -/
theorem selectRow_eq_some {r : Row} {h : Word} (hs : selectRow h = some r) : r ∈ opTable ∧ r.selects h = true :=
  ⟨List.mem_of_find?_eq_some hs, by simpa using List.find?_some (p := fun r : Row => r.selects h) hs⟩

theorem selectRow_eq_none {h : Word} : selectRow h = none ↔ ∀ r ∈ opTable, r.selects h = false := by
  simp [selectRow, List.find?_eq_none]

/-- All of the opcode field is fixed in every row, so a header that selects a row has its opcode. -/
theorem opField_of_selects {r : Row} {h : Word} (hm : r ∈ opTable) (hs : r.selects h = true) :
    opField h = opField r.value := by
  have hall : ∀ r ∈ opTable, r.mask &&& 0xFF = 0xFF := by decide
  have hmask := hall r hm
  simp only [Row.selects, beq_iff_eq] at hs
  rw [← hs]
  ext i hi
  have hb : r.mask.getLsbD i = true := by
    have hbit := congrArg (fun m : Word => m.getLsbD i) hmask
    have h255 : (0xFF#32).getLsbD i = true := by interval_cases i <;> rfl
    simp only [BitVec.ofNat_eq_ofNat, BitVec.getLsbD_and, h255, Bool.and_true] at hbit
    exact hbit
  simp [opField, hb]

/-- The rows of the table have different opcodes. -/
theorem opField_value_injective {r r' : Row} (hm : r ∈ opTable) (hm' : r' ∈ opTable)
    (h : opField r.value = opField r'.value) : r = r' := by
  have hall : ∀ r ∈ opTable, ∀ r' ∈ opTable, opField r.value = opField r'.value → r = r' := by decide
  exact hall r hm r' hm' h

/-- A header with a row's opcode but not its fixed bits selects no row (R74). -/
theorem selectRow_none_of_reserved {r : Row} {h : Word} (hm : r ∈ opTable) (ho : opField h = opField r.value)
    (hne : h &&& r.mask ≠ r.value) : selectRow h = none := by
  rw [selectRow_eq_none]
  intro r' hm'
  by_contra hc
  have hc' : r'.selects h = true := by simpa using hc
  have : r' = r := opField_value_injective hm' hm ((opField_of_selects hm' hc').symm.trans ho)
  subst this
  simp only [Row.selects, beq_iff_eq] at hc'
  exact hne hc'

/-- A header with all its operand words decodes, or is refused, as a command (R72). -/
theorem decode_cons_of_le {h : Word} {ops : List Word} (hl : operandWords h ≤ ops.length) :
    decode (h :: ops) = decodeCommand h (ops.getD 0 0) (ops.getD 1 0) := by
  simp [decode, Nat.not_lt.mpr hl]

/-- A header that selects no row is illegal, with the words its opcode calls for (R74, R75). -/
theorem decodeCommand_of_none {h w1 w2 : Word} (hn : selectRow h = none) :
    ∃ why, decodeCommand h w1 w2 = .illegal why (1 + operandWords h) := by
  simp only [decodeCommand, hn]
  split_ifs <;> exact ⟨_, rfl⟩

theorem decodeCommand_of_selects {r : Row} {h w1 w2 : Word} (hm : r ∈ opTable) (hs : r.selects h = true) :
    decodeCommand h w1 w2 = .instr (assembleOperands r.op h w1 w2) (1 + operandWords h) := by
  simp [decodeCommand, selectRow_of_selects hm hs]

end Sys2Proof
end

