-- ==== Sys2Proof/Laws/State.lean ====
section
/-! SUPPORT. One lemma per field and update of the state and of the framer, so that no proof unfolds a record update. -/

namespace Sys2Proof.Machine

variable (s : State) (f : Framer)

@[simp] theorem State.setCrc_crc (v : Byte) : (s.setCrc v).crc = v := rfl
@[simp] theorem State.setCrc_framer (v : Byte) : (s.setCrc v).framer = s.framer := rfl
@[simp] theorem State.setCrc_lastErr (v : Byte) : (s.setCrc v).lastErr = s.lastErr := rfl
@[simp] theorem State.setCrc_input (v : Byte) : (s.setCrc v).input = s.input := rfl
@[simp] theorem State.setCrc_pos (v : Byte) : (s.setCrc v).pos = s.pos := rfl
@[simp] theorem State.setCrc_resp (v : Byte) : (s.setCrc v).resp = s.resp := rfl
@[simp] theorem State.setCrc_out (v : Byte) : (s.setCrc v).out = s.out := rfl

@[simp] theorem State.setFramer_crc (f : Framer) : (s.setFramer f).crc = s.crc := rfl
@[simp] theorem State.setFramer_framer (f : Framer) : (s.setFramer f).framer = f := rfl
@[simp] theorem State.setFramer_lastErr (f : Framer) : (s.setFramer f).lastErr = s.lastErr := rfl
@[simp] theorem State.setFramer_input (f : Framer) : (s.setFramer f).input = s.input := rfl
@[simp] theorem State.setFramer_pos (f : Framer) : (s.setFramer f).pos = s.pos := rfl
@[simp] theorem State.setFramer_resp (f : Framer) : (s.setFramer f).resp = s.resp := rfl
@[simp] theorem State.setFramer_out (f : Framer) : (s.setFramer f).out = s.out := rfl

@[simp] theorem State.setLastErr_crc (v : Byte) : (s.setLastErr v).crc = s.crc := rfl
@[simp] theorem State.setLastErr_framer (v : Byte) : (s.setLastErr v).framer = s.framer := rfl
@[simp] theorem State.setLastErr_lastErr (v : Byte) : (s.setLastErr v).lastErr = v := rfl
@[simp] theorem State.setLastErr_input (v : Byte) : (s.setLastErr v).input = s.input := rfl
@[simp] theorem State.setLastErr_pos (v : Byte) : (s.setLastErr v).pos = s.pos := rfl
@[simp] theorem State.setLastErr_resp (v : Byte) : (s.setLastErr v).resp = s.resp := rfl
@[simp] theorem State.setLastErr_out (v : Byte) : (s.setLastErr v).out = s.out := rfl

@[simp] theorem State.respond_crc (r : Response) : (s.respond r).crc = s.crc := rfl
@[simp] theorem State.respond_framer (r : Response) : (s.respond r).framer = s.framer := rfl
@[simp] theorem State.respond_lastErr (r : Response) : (s.respond r).lastErr = s.lastErr := rfl
@[simp] theorem State.respond_input (r : Response) : (s.respond r).input = s.input := rfl
@[simp] theorem State.respond_pos (r : Response) : (s.respond r).pos = s.pos := rfl
@[simp] theorem State.respond_resp (r : Response) : (s.respond r).resp = s.resp ++ [r] := rfl
@[simp] theorem State.respond_out (r : Response) : (s.respond r).out = s.out := rfl

@[simp] theorem State.deliver_crc (rs : List Record) : (s.deliver rs).crc = s.crc := rfl
@[simp] theorem State.deliver_framer (rs : List Record) : (s.deliver rs).framer = s.framer := rfl
@[simp] theorem State.deliver_lastErr (rs : List Record) : (s.deliver rs).lastErr = s.lastErr := rfl
@[simp] theorem State.deliver_input (rs : List Record) : (s.deliver rs).input = s.input := rfl
@[simp] theorem State.deliver_pos (rs : List Record) : (s.deliver rs).pos = s.pos := rfl
@[simp] theorem State.deliver_resp (rs : List Record) : (s.deliver rs).resp = s.resp := rfl
@[simp] theorem State.deliver_out (rs : List Record) : (s.deliver rs).out = s.out ++ rs := rfl

@[simp] theorem State.consume_crc (used : Nat) : (s.consume used).crc = s.crc := rfl
@[simp] theorem State.consume_framer (used : Nat) : (s.consume used).framer = s.framer := rfl
@[simp] theorem State.consume_lastErr (used : Nat) : (s.consume used).lastErr = s.lastErr := rfl
@[simp] theorem State.consume_input (used : Nat) : (s.consume used).input = s.input.drop used := rfl
@[simp] theorem State.consume_pos (used : Nat) : (s.consume used).pos = s.pos + 1 := rfl
@[simp] theorem State.consume_resp (used : Nat) : (s.consume used).resp = s.resp := rfl
@[simp] theorem State.consume_out (used : Nat) : (s.consume used).out = s.out := rfl

@[simp] theorem State.finishOk_crc (vs : List Word) : (s.finishOk vs).crc = s.crc := rfl
@[simp] theorem State.finishOk_framer (vs : List Word) : (s.finishOk vs).framer = s.framer := rfl
@[simp] theorem State.finishOk_lastErr (vs : List Word) : (s.finishOk vs).lastErr = 0x00 := rfl
@[simp] theorem State.finishOk_input (vs : List Word) : (s.finishOk vs).input = s.input := rfl
@[simp] theorem State.finishOk_pos (vs : List Word) : (s.finishOk vs).pos = s.pos := rfl
@[simp] theorem State.finishOk_resp (vs : List Word) : (s.finishOk vs).resp = s.resp ++ [.ok vs] := rfl
@[simp] theorem State.finishOk_out (vs : List Word) : (s.finishOk vs).out = s.out := rfl

@[simp] theorem State.abandon_crc : (s.abandon).crc = s.crc := rfl
@[simp] theorem State.abandon_framer : (s.abandon).framer = Framer.idle := rfl
@[simp] theorem State.abandon_lastErr : (s.abandon).lastErr = s.lastErr := rfl
@[simp] theorem State.abandon_input : (s.abandon).input = s.input := rfl
@[simp] theorem State.abandon_pos : (s.abandon).pos = s.pos := rfl
@[simp] theorem State.abandon_resp : (s.abandon).resp = s.resp := rfl
@[simp] theorem State.abandon_out : (s.abandon).out = s.out := rfl

@[simp] theorem State.commit_crc (f : Framer) : (s.commit f).crc = s.crc := rfl
@[simp] theorem State.commit_framer (f : Framer) : (s.commit f).framer = Framer.idle := rfl
@[simp] theorem State.commit_lastErr (f : Framer) : (s.commit f).lastErr = s.lastErr := rfl
@[simp] theorem State.commit_input (f : Framer) : (s.commit f).input = s.input := rfl
@[simp] theorem State.commit_pos (f : Framer) : (s.commit f).pos = s.pos := rfl
@[simp] theorem State.commit_resp (f : Framer) : (s.commit f).resp = s.resp := rfl
@[simp] theorem State.commit_out (f : Framer) : (s.commit f).out = s.out ++ f.pend := rfl

@[simp] theorem State.resetRegisters_crc : (s.resetRegisters).crc = 0x00 := rfl
@[simp] theorem State.resetRegisters_framer : (s.resetRegisters).framer = Framer.idle := rfl
@[simp] theorem State.resetRegisters_lastErr : (s.resetRegisters).lastErr = 0x00 := rfl
@[simp] theorem State.resetRegisters_input : (s.resetRegisters).input = s.input := rfl
@[simp] theorem State.resetRegisters_pos : (s.resetRegisters).pos = s.pos := rfl
@[simp] theorem State.resetRegisters_resp : (s.resetRegisters).resp = s.resp := rfl
@[simp] theorem State.resetRegisters_out : (s.resetRegisters).out = s.out := rfl

@[simp] theorem State.raise_crc (e : ErrCode) : (s.raise e).crc = s.crc := by cases e <;> rfl
@[simp] theorem State.raise_lastErr (e : ErrCode) : (s.raise e).lastErr = e.code := by cases e <;> rfl
@[simp] theorem State.raise_input (e : ErrCode) : (s.raise e).input = s.input := by cases e <;> rfl
@[simp] theorem State.raise_pos (e : ErrCode) : (s.raise e).pos = s.pos := by cases e <;> rfl
@[simp] theorem State.raise_resp (e : ErrCode) : (s.raise e).resp = s.resp ++ [.err e] := by cases e <;> rfl
@[simp] theorem State.raise_out (e : ErrCode) : (s.raise e).out = s.out := by cases e <;> rfl

/-- A framer error puts the framer to its IDLE values (R204). -/
theorem State.raise_framer_of_ne (e : ErrCode) (h : e ≠ .illegalCmd) : (s.raise e).framer = Framer.idle := by
  cases e <;> first | rfl | exact absurd rfl h

/-- ILLEGAL_CMD leaves the framer alone (R204). -/
@[simp] theorem State.raise_illegalCmd_framer : (s.raise .illegalCmd).framer = s.framer := rfl

@[simp] theorem State.raise_sequence_framer : (s.raise .sequence).framer = Framer.idle := rfl

@[simp] theorem State.raise_invalidColumns_framer : (s.raise .invalidColumns).framer = Framer.idle := rfl

@[simp] theorem State.raise_addressOverflow_framer : (s.raise .addressOverflow).framer = Framer.idle := rfl

@[simp] theorem State.raise_lengthMismatch_framer : (s.raise .lengthMismatch).framer = Framer.idle := rfl

@[simp] theorem Framer.emit_hstate (r : Record) : (f.emit r).hstate = f.hstate := rfl
@[simp] theorem Framer.emit_cols (r : Record) : (f.emit r).cols = f.cols := rfl
@[simp] theorem Framer.emit_pre (r : Record) : (f.emit r).pre = f.pre := rfl
@[simp] theorem Framer.emit_base (r : Record) : (f.emit r).base = f.base := rfl
@[simp] theorem Framer.emit_len (r : Record) : (f.emit r).len = f.len := rfl
@[simp] theorem Framer.emit_k (r : Record) : (f.emit r).k = f.k := rfl
@[simp] theorem Framer.emit_offb (r : Record) : (f.emit r).offb = f.offb := rfl
@[simp] theorem Framer.emit_raddr (r : Record) : (f.emit r).raddr = f.raddr := rfl
@[simp] theorem Framer.emit_rcnt (r : Record) : (f.emit r).rcnt = f.rcnt := rfl
@[simp] theorem Framer.emit_rdata (r : Record) : (f.emit r).rdata = f.rdata := rfl
@[simp] theorem Framer.emit_rsum (r : Record) : (f.emit r).rsum = f.rsum := rfl
@[simp] theorem Framer.emit_pend (r : Record) : (f.emit r).pend = f.pend ++ [r] := rfl

end Sys2Proof.Machine
end

