-- ==== Sys2Proof/Laws/Framer.lean ====
section
/-! SUPPORT. The framer procedures: one lemma per field for each of them, and what PLACE can do, case by case. -/

namespace Sys2Proof.Machine

variable (f : Framer)

@[simp] theorem Framer.flush_hstate : (f.flush).hstate = f.hstate := rfl
@[simp] theorem Framer.flush_cols : (f.flush).cols = f.cols := rfl
@[simp] theorem Framer.flush_pre : (f.flush).pre = f.pre := rfl
@[simp] theorem Framer.flush_base : (f.flush).base = f.base := rfl
@[simp] theorem Framer.flush_len : (f.flush).len = f.len := rfl
@[simp] theorem Framer.flush_k : (f.flush).k = f.k := rfl
@[simp] theorem Framer.flush_offb : (f.flush).offb = f.offb := rfl
@[simp] theorem Framer.flush_raddr : (f.flush).raddr = f.raddr := rfl
@[simp] theorem Framer.flush_rcnt : (f.flush).rcnt = 0 := rfl
@[simp] theorem Framer.flush_rdata : (f.flush).rdata = [] := rfl
@[simp] theorem Framer.flush_rsum : (f.flush).rsum = 0 := rfl
@[simp] theorem Framer.flush_pend : (f.flush).pend = f.pend ++ [f.currentRecord] := rfl

@[simp] theorem Framer.append_hstate (d : Byte) : (f.append d).hstate = f.hstate := rfl
@[simp] theorem Framer.append_cols (d : Byte) : (f.append d).cols = f.cols := rfl
@[simp] theorem Framer.append_pre (d : Byte) : (f.append d).pre = f.pre := rfl
@[simp] theorem Framer.append_base (d : Byte) : (f.append d).base = f.base := rfl
@[simp] theorem Framer.append_len (d : Byte) : (f.append d).len = f.len := rfl
@[simp] theorem Framer.append_k (d : Byte) : (f.append d).k = f.k := rfl
@[simp] theorem Framer.append_offb (d : Byte) : (f.append d).offb = f.offb := rfl
@[simp] theorem Framer.append_raddr (d : Byte) : (f.append d).raddr = f.raddr := rfl
@[simp] theorem Framer.append_rcnt (d : Byte) : (f.append d).rcnt = f.rcnt + 1 := rfl
@[simp] theorem Framer.append_rdata (d : Byte) : (f.append d).rdata = f.rdata ++ [d] := rfl
@[simp] theorem Framer.append_rsum (d : Byte) : (f.append d).rsum = f.rsum + d := rfl
@[simp] theorem Framer.append_pend (d : Byte) : (f.append d).pend = f.pend := rfl

@[simp] theorem Framer.cross_hstate (rel : Nat) : (f.cross rel).hstate = f.hstate := rfl
@[simp] theorem Framer.cross_cols (rel : Nat) : (f.cross rel).cols = f.cols := rfl
@[simp] theorem Framer.cross_pre (rel : Nat) : (f.cross rel).pre = f.pre := rfl
@[simp] theorem Framer.cross_base (rel : Nat) : (f.cross rel).base = f.base := rfl
@[simp] theorem Framer.cross_len (rel : Nat) : (f.cross rel).len = f.len := rfl
@[simp] theorem Framer.cross_k (rel : Nat) : (f.cross rel).k = f.k := rfl
@[simp] theorem Framer.cross_offb (rel : Nat) : (f.cross rel).offb = BitVec.ofNat 32 rel := rfl
@[simp] theorem Framer.cross_raddr (rel : Nat) : (f.cross rel).raddr = 0 := rfl
@[simp] theorem Framer.cross_rcnt (rel : Nat) : (f.cross rel).rcnt = 0 := rfl
@[simp] theorem Framer.cross_rdata (rel : Nat) : (f.cross rel).rdata = [] := rfl
@[simp] theorem Framer.cross_rsum (rel : Nat) : (f.cross rel).rsum = 0 := rfl
@[simp] theorem Framer.cross_pend (rel : Nat) : (f.cross rel).pend = f.pend ++ [f.currentRecord] ++ [elaRecord (BitVec.ofNat 32 rel)] := rfl

@[simp] theorem Framer.wrap_hstate (rel : Nat) : (f.wrap rel).hstate = f.hstate := rfl
@[simp] theorem Framer.wrap_cols (rel : Nat) : (f.wrap rel).cols = f.cols := rfl
@[simp] theorem Framer.wrap_pre (rel : Nat) : (f.wrap rel).pre = f.pre := rfl
@[simp] theorem Framer.wrap_base (rel : Nat) : (f.wrap rel).base = f.base := rfl
@[simp] theorem Framer.wrap_len (rel : Nat) : (f.wrap rel).len = f.len := rfl
@[simp] theorem Framer.wrap_k (rel : Nat) : (f.wrap rel).k = f.k := rfl
@[simp] theorem Framer.wrap_offb (rel : Nat) : (f.wrap rel).offb = f.offb := rfl
@[simp] theorem Framer.wrap_raddr (rel : Nat) : (f.wrap rel).raddr = BitVec.ofNat 16 (rel - f.offb.toNat) := rfl
@[simp] theorem Framer.wrap_rcnt (rel : Nat) : (f.wrap rel).rcnt = 0 := rfl
@[simp] theorem Framer.wrap_rdata (rel : Nat) : (f.wrap rel).rdata = [] := rfl
@[simp] theorem Framer.wrap_rsum (rel : Nat) : (f.wrap rel).rsum = 0 := rfl
@[simp] theorem Framer.wrap_pend (rel : Nat) : (f.wrap rel).pend = f.pend ++ [f.currentRecord] := rfl

@[simp] theorem Framer.accept_hstate (d : Byte) : (f.accept d).hstate = (f.place d f.nextAddress).hstate := rfl
@[simp] theorem Framer.accept_cols (d : Byte) : (f.accept d).cols = (f.place d f.nextAddress).cols := rfl
@[simp] theorem Framer.accept_pre (d : Byte) : (f.accept d).pre = (f.place d f.nextAddress).pre := rfl
@[simp] theorem Framer.accept_base (d : Byte) : (f.accept d).base = (f.place d f.nextAddress).base := rfl
@[simp] theorem Framer.accept_len (d : Byte) : (f.accept d).len = (f.place d f.nextAddress).len := rfl
@[simp] theorem Framer.accept_k (d : Byte) : (f.accept d).k = f.k + 1 := rfl
@[simp] theorem Framer.accept_offb (d : Byte) : (f.accept d).offb = (f.place d f.nextAddress).offb := rfl
@[simp] theorem Framer.accept_raddr (d : Byte) : (f.accept d).raddr = (f.place d f.nextAddress).raddr := rfl
@[simp] theorem Framer.accept_rcnt (d : Byte) : (f.accept d).rcnt = (f.place d f.nextAddress).rcnt := rfl
@[simp] theorem Framer.accept_rdata (d : Byte) : (f.accept d).rdata = (f.place d f.nextAddress).rdata := rfl
@[simp] theorem Framer.accept_rsum (d : Byte) : (f.accept d).rsum = (f.place d f.nextAddress).rsum := rfl
@[simp] theorem Framer.accept_pend (d : Byte) : (f.accept d).pend = (f.place d f.nextAddress).pend := rfl

@[simp] theorem Framer.makeRoom_hstate (rel : Nat) : (f.makeRoom rel).hstate = f.hstate := by
  unfold Framer.makeRoom
  split_ifs <;> rfl

@[simp] theorem Framer.place_hstate (d : Byte) (rel : Nat) : (f.place d rel).hstate = f.hstate := by
  simp [Framer.place]

@[simp] theorem Framer.makeRoom_cols (rel : Nat) : (f.makeRoom rel).cols = f.cols := by
  unfold Framer.makeRoom
  split_ifs <;> rfl

@[simp] theorem Framer.place_cols (d : Byte) (rel : Nat) : (f.place d rel).cols = f.cols := by
  simp [Framer.place]

@[simp] theorem Framer.makeRoom_pre (rel : Nat) : (f.makeRoom rel).pre = f.pre := by
  unfold Framer.makeRoom
  split_ifs <;> rfl

@[simp] theorem Framer.place_pre (d : Byte) (rel : Nat) : (f.place d rel).pre = f.pre := by
  simp [Framer.place]

@[simp] theorem Framer.makeRoom_base (rel : Nat) : (f.makeRoom rel).base = f.base := by
  unfold Framer.makeRoom
  split_ifs <;> rfl

@[simp] theorem Framer.place_base (d : Byte) (rel : Nat) : (f.place d rel).base = f.base := by
  simp [Framer.place]

@[simp] theorem Framer.makeRoom_len (rel : Nat) : (f.makeRoom rel).len = f.len := by
  unfold Framer.makeRoom
  split_ifs <;> rfl

@[simp] theorem Framer.place_len (d : Byte) (rel : Nat) : (f.place d rel).len = f.len := by
  simp [Framer.place]

@[simp] theorem Framer.makeRoom_k (rel : Nat) : (f.makeRoom rel).k = f.k := by
  unfold Framer.makeRoom
  split_ifs <;> rfl

@[simp] theorem Framer.place_k (d : Byte) (rel : Nat) : (f.place d rel).k = f.k := by
  simp [Framer.place]

/-- PLACE does exactly one of three things: a segment crossing, a flush of a full record, a plain append (R144). -/
theorem Framer.place_cases (d : Byte) (rel : Nat) :
    (rel - f.offb.toNat = Config.segment ∧ f.place d rel = (f.cross rel).append d) ∨
    (rel - f.offb.toNat ≠ Config.segment ∧ f.rcnt.toNat = f.cols.toNat ∧ f.place d rel = (f.wrap rel).append d) ∨
    (rel - f.offb.toNat ≠ Config.segment ∧ f.rcnt.toNat ≠ f.cols.toNat ∧ f.place d rel = f.append d) := by
  unfold Framer.place Framer.makeRoom
  split_ifs with hcross hfull
  · exact .inl ⟨hcross, rfl⟩
  · exact .inr (.inl ⟨hcross, hfull, rfl⟩)
  · exact .inr (.inr ⟨hcross, hfull, rfl⟩)

@[simp] theorem Framer.placeAll_nil (rel : Nat) : f.placeAll rel [] = f := rfl

@[simp] theorem Framer.placeAll_cons (rel : Nat) (d : Byte) (ds : List Byte) :
    f.placeAll rel (d :: ds) = (f.place d rel).placeAll (rel + 1) ds := rfl

theorem Framer.placeAll_append (rel : Nat) (ds es : List Byte) :
    f.placeAll rel (ds ++ es) = (f.placeAll rel ds).placeAll (rel + ds.length) es := by
  induction ds generalizing f rel with
  | nil => rfl
  | cons d ds ih =>
    simp only [List.cons_append, Framer.placeAll_cons, ih, List.length_cons]
    congr 1
    omega

end Sys2Proof.Machine
end

