-- ==== Sys2Proof/Laws/Operands.lean ====
section
/-! SUPPORT. What the operand checks and the size prefix are, in plain numbers. -/

namespace Sys2Proof.Machine

/-- The legal columns are 16 and 32 (R141). -/
theorem legalColumns_iff (columns : Byte) : legalColumns columns = true ↔ columns = 16 ∨ columns = 32 := by
  simp [legalColumns, Config.legalColumns]

/-- Address overflow, as R143 writes it. -/
theorem addressOverflow_iff (base : Word) (p : Bool) (n : Word) :
    addressOverflow base p n = true ↔ 2 ^ 32 < base.toNat + (if p then 4 else 0) + n.toNat := by
  cases p <;> simp [addressOverflow, prefixLength, Config.addressLimit, Config.sizePrefixBytes]

/-- The size prefix is the four bytes of n, most significant first (R53). -/
theorem sizePrefix_eq (n : Word) :
    sizePrefix n = [n.extractLsb' 24 8, n.extractLsb' 16 8, n.extractLsb' 8 8, n.extractLsb' 0 8] := rfl

theorem prefixLength_eq (p : Bool) : prefixLength p = if p then 4 else 0 := rfl

end Sys2Proof.Machine
end

