-- ==== Sys2Proof/Laws/Records.lean ====
section
/-! SUPPORT. The checksum of a record makes its bytes sum to 0 mod 256, and the two fixed records are sound. -/

namespace Sys2Proof.Machine

@[simp] theorem byteSum_nil : byteSum [] = 0 := rfl

@[simp] theorem byteSum_cons (b : Byte) (bs : List Byte) : byteSum (b :: bs) = b.toNat + byteSum bs := rfl

theorem byteSum_append (bs cs : List Byte) : byteSum (bs ++ cs) = byteSum bs + byteSum cs := by
  induction bs with
  | nil => simp
  | cons b bs ih => simp [ih]; omega

/-- The total and its complement sum to 0 mod 256 (R147). -/
theorem add_negMod256 (total : Nat) : (total + (negMod256 total).toNat) % 256 = 0 := by
  simp only [negMod256, BitVec.toNat_ofNat]
  omega

/-- The complement depends on the total mod 256 only (R148). -/
theorem negMod256_congr {a b : Nat} (h : a % 256 = b % 256) : negMod256 a = negMod256 b := by
  simp [negMod256, h]

@[simp] theorem elaRecord_isEla (ob : Word) : (elaRecord ob).IsEla := ⟨rfl, rfl, rfl⟩

theorem elaRecord_checksumLaw (ob : Word) : (elaRecord ob).ChecksumLaw := add_negMod256 _

theorem elaRecord_sound (ob : Word) : (elaRecord ob).Sound :=
  ⟨rfl, elaRecord_checksumLaw ob, .inr (.inl (elaRecord_isEla ob))⟩

theorem eofRecord_sound : eofRecord.Sound := by decide

/-- An ELA record is not a data record. -/
theorem Record.IsEla.not_isData {r : Record} (h : r.IsEla) : ¬ r.IsData := by
  rintro ⟨hd, -⟩
  rw [h.1] at hd
  exact absurd hd (by decide)

end Sys2Proof.Machine
end

