-- ==== Sys2Proof/Laws/Placing.lean ====
section
/-! SUPPORT. The invariant of R38 while stream bytes are being placed, the size prefix's among them: `f.Placing rel`
says that the next stream byte goes to target address `rel`. PLACE keeps it (R144), and it is what the invariant of an
open encode comes from. -/

namespace Sys2Proof.Machine

/-- R38 with the next target address as a parameter. -/
structure Framer.Placing (f : Framer) (rel : Nat) : Prop where
  cols_legal : legalColumns f.cols = true
  offb_aligned : f.offb.toNat % Config.segment = 0
  position : f.offb.toNat + f.raddr.toNat + f.rcnt.toNat = rel
  within_segment : rel ≤ f.offb.toNat + Config.segment
  rcnt_le_cols : f.rcnt.toNat ≤ f.cols.toNat
  rdata_length : f.rdata.length = f.rcnt.toNat
  running_sum : f.rsum.toNat = byteSum f.rdata % 256
  starts_with_ela : ∃ r rs, f.pend = r :: rs ∧ r.IsEla
  pend_checksums : ∀ r ∈ f.pend, r.ChecksumLaw

variable {f : Framer} {rel : Nat}

theorem Framer.Placing.cols_cases (h : f.Placing rel) : f.cols.toNat = 16 ∨ f.cols.toNat = 32 := by
  rcases (legalColumns_iff f.cols).mp h.cols_legal with hc | hc <;> simp [hc]

/-- FLUSH's record has a right count. -/
theorem Framer.Placing.current_count (h : f.Placing rel) : f.currentRecord.CountLaw := by
  have := f.rcnt.isLt
  simp only [Record.CountLaw, Framer.currentRecord, h.rdata_length, BitVec.toNat_setWidth]
  omega

/-- FLUSH's record obeys the checksum law (R148, R160). -/
theorem Framer.Placing.current_checksum (h : f.Placing rel) : f.currentRecord.ChecksumLaw := by
  have hlt := f.rcnt.isLt
  have hsum := h.running_sum
  have hcs := add_negMod256
    (f.rcnt.toNat + (addrHigh f.raddr).toNat + (addrLow f.raddr).toNat + 0x00 + f.rsum.toNat)
  have hw : (f.rcnt.setWidth 8).toNat = f.rcnt.toNat := by
    rw [BitVec.toNat_setWidth]; omega
  simp only [Record.ChecksumLaw, Framer.currentRecord, hw] at hcs ⊢
  have h0 : (0x00#8).toNat = 0 := rfl
  simp only [BitVec.ofNat_eq_ofNat, h0]
  omega

/-- A nonempty current record is a data record within its segment (R156). -/
theorem Framer.Placing.current_isData (h : f.Placing rel) (hpos : 0 < f.rcnt.toNat) : f.currentRecord.IsData := by
  have hlt := f.rcnt.isLt
  have hcols := h.cols_cases
  have hle := h.rcnt_le_cols
  have hpo := h.position
  have hws := h.within_segment
  have hw : f.currentRecord.count.toNat = f.rcnt.toNat := by
    simp only [Framer.currentRecord, BitVec.toNat_setWidth]; omega
  refine ⟨rfl, ?_, ?_, ?_⟩
  · omega
  · omega
  · rw [hw]
    show f.raddr.toNat + f.rcnt.toNat ≤ Config.segment
    omega

theorem Framer.Placing.current_sound (h : f.Placing rel) (hpos : 0 < f.rcnt.toNat) : f.currentRecord.Sound :=
  ⟨h.current_count, h.current_checksum, .inl (h.current_isData hpos)⟩

/-- At a crossing the current record is not empty and ends at its segment's end (R145, R162). -/
theorem Framer.Placing.crossing (h : f.Placing rel) (hx : rel - f.offb.toNat = Config.segment) :
    0 < f.rcnt.toNat ∧ f.raddr.toNat + f.rcnt.toNat = Config.segment := by
  have hpo := h.position
  have hra := f.raddr.isLt
  simp only [Config.segment] at *
  omega

/-- A full record is not empty. -/
theorem Framer.Placing.full (h : f.Placing rel) (hf : f.rcnt.toNat = f.cols.toNat) : 0 < f.rcnt.toNat := by
  have := h.cols_cases
  omega

theorem Framer.Placing.starts_append (h : f.Placing rel) (more : List Record) :
    ∃ r rs, f.pend ++ more = r :: rs ∧ r.IsEla := by
  obtain ⟨r, rs, hp, hr⟩ := h.starts_with_ela
  exact ⟨r, rs ++ more, by rw [hp, List.cons_append], hr⟩

/-- The sum of an appended list, in the 8-bit running sum (R33). -/
theorem runningSum_append {rsum d : Byte} {data : List Byte} (h : rsum.toNat = byteSum data % 256) :
    (rsum + d).toNat = byteSum (data ++ [d]) % 256 := by
  rw [BitVec.toNat_add, byteSum_append, h]
  simp

/-- PLACE keeps the invariant and moves on by one address; the record it leaves is not empty (R38, R144). -/
theorem Framer.Placing.place (h : f.Placing rel) (hrel : rel < 2 ^ 32) (d : Byte) :
    (f.place d rel).Placing (rel + 1) ∧ 0 < (f.place d rel).rcnt.toNat := by
  have hcols := h.cols_cases
  have hpo := h.position
  have hws := h.within_segment
  have hal := h.offb_aligned
  have hle := h.rcnt_le_cols
  have hone : ((0 : BitVec 6) + 1).toNat = 1 := rfl
  have hsum1 : ((0 : Byte) + d).toNat = byteSum ([] ++ [d]) % 256 := runningSum_append rfl
  rcases f.place_cases d rel with ⟨hx, he⟩ | ⟨hx, hf, he⟩ | ⟨hx, hf, he⟩
  · have hmod : (BitVec.ofNat 32 rel).toNat = rel := by
      rw [BitVec.toNat_ofNat]; exact Nat.mod_eq_of_lt hrel
    rw [he]
    refine ⟨⟨h.cols_legal, ?_, ?_, ?_, ?_, ?_, ?_, ?_, ?_⟩, ?_⟩
    · simp only [Framer.append_offb, Framer.cross_offb, hmod, Config.segment] at *
      omega
    · simp only [Framer.append_offb, Framer.append_raddr, Framer.append_rcnt, Framer.cross_offb, Framer.cross_raddr,
        Framer.cross_rcnt, hmod, hone]
      rfl
    · simp only [Framer.append_offb, Framer.cross_offb, hmod, Config.segment]
      omega
    · simp only [Framer.append_rcnt, Framer.append_cols, Framer.cross_rcnt, Framer.cross_cols, hone]
      omega
    · simp only [Framer.append_rdata, Framer.append_rcnt, Framer.cross_rdata, Framer.cross_rcnt, hone]
      rfl
    · exact hsum1
    · simp only [Framer.append_pend, Framer.cross_pend, List.append_assoc]
      exact h.starts_append _
    · simp only [Framer.append_pend, Framer.cross_pend, List.append_assoc, List.mem_append, List.mem_singleton]
      rintro r (hr | rfl | rfl)
      · exact h.pend_checksums r hr
      · exact h.current_checksum
      · exact elaRecord_checksumLaw _
    · simp only [Framer.append_rcnt, Framer.cross_rcnt, hone]
      omega
  · have hra : (BitVec.ofNat 16 (rel - f.offb.toNat)).toNat = rel - f.offb.toNat := by
      rw [BitVec.toNat_ofNat]
      simp only [Config.segment] at *
      omega
    rw [he]
    refine ⟨⟨h.cols_legal, hal, ?_, ?_, ?_, ?_, ?_, ?_, ?_⟩, ?_⟩
    · simp only [Framer.append_offb, Framer.append_raddr, Framer.append_rcnt, Framer.wrap_offb, Framer.wrap_raddr,
        Framer.wrap_rcnt, hra, hone]
      omega
    · simp only [Framer.append_offb, Framer.wrap_offb, Config.segment] at *
      omega
    · simp only [Framer.append_rcnt, Framer.append_cols, Framer.wrap_rcnt, Framer.wrap_cols, hone]
      omega
    · simp only [Framer.append_rdata, Framer.append_rcnt, Framer.wrap_rdata, Framer.wrap_rcnt, hone]
      rfl
    · exact hsum1
    · simp only [Framer.append_pend, Framer.wrap_pend]
      exact h.starts_append _
    · simp only [Framer.append_pend, Framer.wrap_pend, List.mem_append, List.mem_singleton]
      rintro r (hr | rfl)
      · exact h.pend_checksums r hr
      · exact h.current_checksum
    · simp only [Framer.append_rcnt, Framer.wrap_rcnt, hone]
      omega
  · have hcnt : (f.rcnt + 1).toNat = f.rcnt.toNat + 1 := by
      rw [BitVec.toNat_add]
      show (f.rcnt.toNat + 1) % 64 = f.rcnt.toNat + 1
      omega
    rw [he]
    refine ⟨⟨h.cols_legal, hal, ?_, ?_, ?_, ?_, ?_, h.starts_with_ela, h.pend_checksums⟩, ?_⟩
    · simp only [Framer.append_offb, Framer.append_raddr, Framer.append_rcnt, hcnt]
      omega
    · simp only [Framer.append_offb, Config.segment] at *
      omega
    · simp only [Framer.append_rcnt, Framer.append_cols, hcnt]
      omega
    · simp only [Framer.append_rdata, Framer.append_rcnt, hcnt, List.length_append, h.rdata_length]
      rfl
    · exact runningSum_append h.running_sum
    · simp only [Framer.append_rcnt, hcnt]
      omega

/-- PLACE, repeated, keeps the invariant. -/
theorem Framer.Placing.placeAll (h : f.Placing rel) (ds : List Byte) (hrel : rel + ds.length ≤ 2 ^ 32) :
    (f.placeAll rel ds).Placing (rel + ds.length) ∧ (ds ≠ [] → 0 < (f.placeAll rel ds).rcnt.toNat) := by
  induction ds generalizing f rel with
  | nil => exact ⟨h, fun hne => absurd rfl hne⟩
  | cons d ds ih =>
    rw [List.length_cons] at hrel
    obtain ⟨hp, hpos⟩ := h.place (by omega) d
    obtain ⟨hq, hq'⟩ := ih hp (by omega)
    rw [Framer.placeAll_cons, List.length_cons, show rel + (ds.length + 1) = rel + 1 + ds.length by omega]
    refine ⟨hq, fun _ => ?_⟩
    by_cases hds : ds = []
    · subst hds; exact hpos
    · exact hq' hds

/-- The segment base rounds down to a segment boundary. -/
theorem segmentBase_toNat (base : Word) : (segmentBase base).toNat = base.toNat - base.toNat % Config.segment := by
  have := base.isLt
  rw [segmentBase, BitVec.toNat_ofNat]
  omega

/-- A newly opened encode is ready to place its first stream byte at base (R143). -/
theorem Framer.opened_placing {columns : Byte} (p : Bool) (base n : Word) (hc : legalColumns columns = true) :
    (Framer.opened columns p base n).Placing base.toNat := by
  refine ⟨hc, ?_, ?_, ?_, Nat.zero_le _, rfl, rfl, ⟨_, _, rfl, elaRecord_isEla _⟩, ?_⟩
  · simp only [Framer.opened, segmentBase_toNat, Config.segment]
    omega
  · simp only [Framer.opened, segmentBase_toNat, Config.segment]
    simp
    omega
  · simp only [Framer.opened, segmentBase_toNat, Config.segment]
    omega
  · simp only [Framer.opened, List.mem_singleton]
    rintro r rfl
    exact elaRecord_checksumLaw _

/-- With the normative parameter of I3 the size prefix goes through PLACE (R142, R143). -/
theorem Framer.started_eq (columns : Byte) (p : Bool) (base n : Word) :
    Framer.started columns p base n =
      (Framer.opened columns p base n).placeAll base.toNat (if p then sizePrefix n else []) := by
  cases p <;> rfl

theorem length_sizePrefix (p : Bool) (n : Word) : (if p then sizePrefix n else []).length = prefixLength p := by
  cases p <;> rfl

end Sys2Proof.Machine
end

