-- ==== Sys2Proof/Laws/Step.lean ====
section
/-! SUPPORT. What a step can do, said once: it runs a command, raises ILLEGAL_CMD, asserts the reset input, or waits;
and what the words at the port are when the host has sent a list of words. -/

namespace Sys2Proof.Machine

@[simp] theorem arrivedWords_nil : arrivedWords [] = [] := rfl

@[simp] theorem arrivedWords_word (w : Word) (rest : List Input) :
    arrivedWords (.word w :: rest) = w :: arrivedWords rest := rfl

@[simp] theorem arrivedWords_resetPin (rest : List Input) : arrivedWords (.resetPin :: rest) = [] := rfl

@[simp] theorem arrivedWords_sent (ws : List Word) (rest : List Input) :
    arrivedWords (ws.map Input.word ++ rest) = ws ++ arrivedWords rest := by
  induction ws with
  | nil => rfl
  | cons w ws ih => simp [ih]

/-- The four kinds of step. -/
theorem step_cases (s : State) :
    (∃ i used, decode (arrivedWords s.input) = .instr i used ∧ fetch s.input = .command i used ∧
      step s = exec i (s.consume used)) ∨
    (∃ why used, decode (arrivedWords s.input) = .illegal why used ∧ fetch s.input = .illegal used ∧
      step s = .next (illegalCommand used s)) ∨
    (∃ rest, decode (arrivedWords s.input) = .incomplete ∧ fetch s.input = .resetPin rest ∧
      step s = .next (assertReset rest s)) ∨
    (decode (arrivedWords s.input) = .incomplete ∧ fetch s.input = .waiting ∧ step s = .next s) := by
  unfold step
  cases hd : decode (arrivedWords s.input) with
  | instr i used => exact .inl ⟨i, used, rfl, by simp [fetch, hd]⟩
  | illegal why used => exact .inr (.inl ⟨why, used, rfl, by simp [fetch, hd]⟩)
  | incomplete =>
    have hf : fetch s.input = fetchIncomplete s.input := by simp [fetch, hd]
    have hi : (∃ rest, fetchIncomplete s.input = .resetPin rest) ∨ fetchIncomplete s.input = .waiting := by
      unfold fetchIncomplete
      split
      · exact .inl ⟨_, rfl⟩
      · exact .inr rfl
    rcases hi with ⟨rest, hr⟩ | hw
    · exact .inr (.inr (.inl ⟨rest, rfl, by simp [hf, hr]⟩))
    · exact .inr (.inr (.inr ⟨rfl, by simp [hf, hw]⟩))

/-- A step on a decoded command. -/
theorem step_of_instr {s : State} {i : Instr} {used : Nat} (h : decode (arrivedWords s.input) = .instr i used) :
    step s = exec i (s.consume used) := by
  simp [step, fetch, h]

/-- A step on an illegal header. -/
theorem step_of_illegal {s : State} {why : Illegal} {used : Nat}
    (h : decode (arrivedWords s.input) = .illegal why used) : step s = .next (illegalCommand used s) := by
  simp [step, fetch, h]

/-- The words of a header and its operands, sent by the host, are what the decoder sees first. -/
theorem decode_sent {s : State} {h : Word} {ws : List Word} {rest : List Input}
    (hl : operandWords h ≤ ws.length) (hs : s.input = (h :: ws).map Input.word ++ rest) :
    decode (arrivedWords s.input) =
      decodeCommand h ((ws ++ arrivedWords rest).getD 0 0) ((ws ++ arrivedWords rest).getD 1 0) := by
  rw [hs, arrivedWords_sent, List.cons_append, decode_cons_of_le (by simp; omega)]

/-- Consuming exactly the words sent leaves the inputs after them. -/
theorem drop_sent (ws : List Word) (rest : List Input) : (ws.map Input.word ++ rest).drop ws.length = rest := by
  rw [List.drop_append_of_le_length (by simp), ← List.length_map (f := Input.word) (as := ws), List.drop_length,
    List.nil_append]

end Sys2Proof.Machine
end

