-- ==== Sys2Proof/Laws/Exec.lean ====
section
/-! SUPPORT. What a command can do to the framer and to OUT, said once, and from it what a step can do; every invariant
of the framer and of OUT is then a case analysis over six effects. -/

namespace Sys2Proof

/-- The decoder answers commands only: no word is a record row (R75, R79). -/
theorem decode_wellFormed {ws : List Word} {i : Instr} {used : Nat} (h : decode ws = .instr i used) :
    i.wellFormed = true := by
  cases ws with
  | nil => simp [decode] at h
  | cons w ops =>
    by_cases hl : ops.length < operandWords w
    · simp [decode, hl] at h
    · rw [decode_cons_of_le (Nat.not_lt.mp hl)] at h
      cases hr : selectRow w with
      | none =>
        obtain ⟨why, hd⟩ := decodeCommand_of_none (w1 := ops.getD 0 0) (w2 := ops.getD 1 0) hr
        rw [hd] at h
        cases h
      | some r =>
        rw [decodeCommand_of_selects (selectRow_eq_some hr).1 (selectRow_eq_some hr).2] at h
        cases h
        cases r.op <;> rfl

namespace Machine

/-- The effects a command can have on the framer and on OUT. -/
inductive FramerEffect (s : State) : Instr → State → Prop where
  /-- framer and OUT untouched: every command outside the framer but RESET -/
  | untouched {i : Instr} {t : State} (framer : t.framer = s.framer) (out : t.out = s.out) : FramerEffect s i t
  /-- a framer error (R204) -/
  | failed {i : Instr} (e : ErrCode) (kind : e ≠ .illegalCmd)
      (command : (∃ columns p base n, i = .hexStart columns p base n) ∨ (∃ d, i = .hexByte d) ∨ i = .hexEnd) :
      FramerEffect s i (s.raise e)
  /-- HEX_ABORT and RESET (R152, R191) -/
  | cleared {i : Instr} {t : State} (command : i = .hexAbort ∨ i = .reset) (framer : t.framer = Framer.idle)
      (out : t.out = s.out) : FramerEffect s i t
  /-- a HEX_START that succeeds (R143) -/
  | opened {columns : Byte} {p : Bool} {base n : Word} (was : s.framer.hstate = .idle)
      (legal : legalColumns columns = true) (fits : addressOverflow base p n = false) :
      FramerEffect s (.hexStart columns p base n) ((s.setFramer (Framer.started columns p base n)).finishOk [])
  /-- a HEX_BYTE that succeeds (R150) -/
  | placed {d : Byte} (was : s.framer.hstate = .active) (more : s.framer.k ≠ s.framer.len) :
      FramerEffect s (.hexByte d) ((s.setFramer (s.framer.accept d)).finishOk [])
  /-- a HEX_END that succeeds (R151) -/
  | delivered (was : s.framer.hstate = .active) (full : s.framer.len.toNat ≤ s.framer.k.toNat) :
      FramerEffect s .hexEnd
        ((s.commit s.framer.closed).finishOk [BitVec.ofNat 32 s.framer.closed.pend.length])

theorem HState.eq_idle_of_ne {h : HState} (hne : h ≠ .active) : h = .idle := by
  cases h
  · rfl
  · exact absurd rfl hne

theorem HState.eq_active_of_ne {h : HState} (hne : h ≠ .idle) : h = .active := by
  cases h
  · exact absurd rfl hne
  · rfl

/-- A command has one of the six effects. -/
theorem exec_framerEffect {i : Instr} {s t : State} (hw : i.wellFormed = true) (h : exec i s = .next t) :
    FramerEffect s i t := by
  cases i with
  | hexStart columns p base n =>
    simp only [exec, execHexStart] at h
    split_ifs at h with h1 h2 h3 <;> cases h
    · exact .failed .sequence (by decide) (.inl ⟨_, _, _, _, rfl⟩)
    · exact .failed .invalidColumns (by decide) (.inl ⟨_, _, _, _, rfl⟩)
    · exact .failed .addressOverflow (by decide) (.inl ⟨_, _, _, _, rfl⟩)
    · exact .opened (HState.eq_idle_of_ne h1) (by simpa using h2) (by simpa using h3)
  | hexByte d =>
    simp only [exec, execHexByte] at h
    split_ifs at h with h1 h2 <;> cases h
    · exact .failed .sequence (by decide) (.inr (.inl ⟨_, rfl⟩))
    · exact .failed .lengthMismatch (by decide) (.inr (.inl ⟨_, rfl⟩))
    · exact .placed (HState.eq_active_of_ne h1) h2
  | hexEnd =>
    simp only [exec, execHexEnd] at h
    split_ifs at h with h1 h2 <;> cases h
    · exact .failed .sequence (by decide) (.inr (.inr rfl))
    · exact .failed .lengthMismatch (by decide) (.inr (.inr rfl))
    · exact .delivered (HState.eq_active_of_ne h1) (Nat.not_lt.mp h2)
  | hexAbort => cases h; exact .cleared (.inl rfl) rfl rfl
  | reset => cases h; exact .cleared (.inr rfl) rfl rfl
  | crcClr | crcBit | crcInt | crcRd | cfgEnc | cfgDec | status => cases h; exact .untouched rfl rfl
  | recData | recEof | recEla => simp [Instr.wellFormed] at hw

/-- A property of the framer and OUT holds after a step if it holds before and each of the effects keeps it. -/
theorem step_keeps {P : Framer → List Record → Prop} {s t : State} (h : step s = .next t) (before : P s.framer s.out)
    (toIdle : P Framer.idle s.out)
    (toOpen : ∀ columns p base n, s.framer.hstate = .idle → legalColumns columns = true →
      addressOverflow base p n = false → P (Framer.started columns p base n) s.out)
    (toNext : ∀ d, s.framer.hstate = .active → s.framer.k ≠ s.framer.len → P (s.framer.accept d) s.out)
    (toOut : s.framer.hstate = .active → s.framer.len.toNat ≤ s.framer.k.toNat →
      P Framer.idle (s.out ++ s.framer.closed.pend)) :
    P t.framer t.out := by
  rcases step_cases s with ⟨i, used, hd, -, he⟩ | ⟨_, _, -, -, he⟩ | ⟨_, -, -, he⟩ | ⟨-, -, he⟩
  · cases exec_framerEffect (decode_wellFormed hd) (he.symm.trans h) with
    | untouched hf ho => rw [hf, ho]; exact before
    | failed e hk hc => rw [State.raise_framer_of_ne _ _ hk, State.raise_out]; exact toIdle
    | cleared hc hf ho => rw [hf, ho]; exact toIdle
    | opened hwas hl hf => exact toOpen _ _ _ _ hwas hl hf
    | placed hwas hm => exact toNext _ hwas hm
    | delivered hwas hfull => exact toOut hwas hfull
  · rw [he] at h; cases h; exact before
  · rw [he] at h; cases h; exact toIdle
  · rw [he] at h; cases h; exact before

@[simp] theorem Framer.placeAll_hstate (f : Framer) (rel : Nat) (ds : List Byte) :
    (f.placeAll rel ds).hstate = f.hstate := by
  induction ds generalizing f rel with
  | nil => rfl
  | cons d ds ih => simp [ih]

/-- HEX_START leaves the framer ACTIVE (R23, R143). -/
@[simp] theorem Framer.started_hstate (columns : Byte) (p : Bool) (base n : Word) :
    (Framer.started columns p base n).hstate = .active := by
  rw [Framer.started_eq, Framer.placeAll_hstate]
  rfl

/-- An open encode between commands is ready to place the byte after the last one. -/
theorem Framer.OpenLaw.placing {f : Framer} (h : f.OpenLaw) : f.Placing f.nextAddress :=
  ⟨h.cols_legal, h.offb_aligned, h.position, h.within_segment, h.rcnt_le_cols, h.rdata_length, h.running_sum,
    h.starts_with_ela, h.pend_checksums⟩

/-- What is to be shown of a framer for R38, beside that it is placing. -/
theorem Framer.Placing.openLaw {f : Framer} (h : f.Placing f.nextAddress) (hk : f.k.toNat ≤ f.len.toNat)
    (hfit : f.base.toNat + prefixLength f.pre + f.len.toNat ≤ Config.addressLimit)
    (hempty : f.rcnt = 0 → f.pre = false ∧ f.k = 0) : f.OpenLaw :=
  ⟨h.cols_legal, hk, h.offb_aligned, by have := h.position; omega, h.position, h.within_segment, h.rcnt_le_cols,
    h.rdata_length, h.running_sum, hfit, h.starts_with_ela, h.pend_checksums, hempty⟩

end Machine

end Sys2Proof
end

