-- ==== Sys2Proof/Laws/PerInstr.lean ====
section
/-! SUPPORT. Statements for every instruction, one lemma per constructor. `CommandWords` is about the length rule (R72)
and the fixed header bits (R74): a command's words are a header of an assigned opcode, with Z = 0, and exactly the
operand words its opcode calls for; a record row has no words on the command port and a type byte of its own (R79). -/

namespace Sys2Proof.Laws.CommandWords

/-- What the words of an instruction are (R70, R72, R74, R79). -/
def Statement (i : Instr) : Prop :=
  if i.wellFormed then
    ∃ h ops, encode i = h :: ops ∧ ops.length = operandWords h ∧ assignedOp (opField h) = true ∧ fieldZ h = 0 ∧
      recordTypeOf i = none
  else encode i = [] ∧ ∃ t, recordTypeOf i = some t ∧ decodeRecordType t = some i

/-- The low byte of a header built of an opcode, an 8-bit A and a one-bit B is the opcode, and its Z is 0. -/
theorem header_fields (op : Byte) (a : Byte) (b : Bool) :
    opField (op.setWidth 32 ||| a.setWidth 32 <<< 8 ||| bitWord b <<< 16) = op ∧
      fieldZ (op.setWidth 32 ||| a.setWidth 32 <<< 8 ||| bitWord b <<< 16) = 0 := by
  have hb : ∀ k, 1 ≤ k → (bitWord b).getLsbD k = false := by
    intro k hk
    cases b
    · simp [bitWord]
    · simp only [bitWord, if_true]
      have h1 : (1 : Word).getLsbD k = false := by
        rw [show (1 : Word) = BitVec.ofNat 32 1 from rfl, BitVec.getLsbD_ofNat]
        have : Nat.testBit 1 k = false := by
          rw [Nat.testBit_lt_two_pow]
          exact Nat.one_lt_two_pow (by omega)
        simp [this]
      exact h1
  constructor
  · ext i hi
    have h1 : i < 8 := hi
    have h2 : i < 16 := by omega
    simp [opField, h1, h2]
    omega
  · ext i hi
    have hz : (bitWord b).getLsbD (24 + i - 16) = false := hb _ (by omega)
    have h16 : 8 ≤ 24 + i - 8 := by omega
    simp [fieldZ, hz, BitVec.getLsbD_of_ge op (24 + i) (by omega), BitVec.getLsbD_of_ge a (24 + i - 8) h16]

theorem crcClr : Statement .crcClr := by
  exact ⟨_, _, rfl, by decide, by decide, by decide, rfl⟩

theorem crcBit (v : Bool) : Statement (.crcBit v) :=
  ⟨_, _, rfl, by revert v; decide, by revert v; decide, by revert v; decide, rfl⟩

theorem crcInt (x : Word) : Statement (.crcInt x) :=
  ⟨_, _, rfl, rfl, by decide, by decide, rfl⟩

theorem crcRd : Statement .crcRd := ⟨_, _, rfl, by decide, by decide, by decide, rfl⟩

theorem cfgEnc (pin : Byte) (h : Bool) : Statement (.cfgEnc pin h) := by
  obtain ⟨hop, hz⟩ := header_fields 0x08 pin h
  refine ⟨_, _, rfl, ?_, ?_, hz, rfl⟩
  · simp only [operandWords, show (0x00000008 : Word) = (0x08 : Byte).setWidth 32 from rfl, hop]
    rfl
  · rw [show (0x00000008 : Word) = (0x08 : Byte).setWidth 32 from rfl, hop]
    decide

theorem cfgDec (word : Word) : Statement (.cfgDec word) :=
  ⟨_, _, rfl, rfl, by decide, by decide, rfl⟩

theorem hexStart (columns : Byte) (p : Bool) (base n : Word) : Statement (.hexStart columns p base n) := by
  obtain ⟨hop, hz⟩ := header_fields 0x10 columns p
  refine ⟨_, _, rfl, ?_, ?_, hz, rfl⟩
  · simp only [operandWords, show (0x00000010 : Word) = (0x10 : Byte).setWidth 32 from rfl, hop]
    rfl
  · rw [show (0x00000010 : Word) = (0x10 : Byte).setWidth 32 from rfl, hop]
    decide

theorem hexByte (d : Byte) : Statement (.hexByte d) := by
  obtain ⟨hop, hz⟩ := header_fields 0x11 d false
  have hh : (0x11 : Byte).setWidth 32 ||| d.setWidth 32 <<< 8 ||| bitWord false <<< 16
      = (0x00000011 : Word) ||| d.setWidth 32 <<< 8 := by
    simp [bitWord]
  rw [hh] at hop hz
  refine ⟨_, _, rfl, ?_, ?_, hz, rfl⟩
  · simp only [operandWords, hop]
    rfl
  · rw [hop]
    decide

theorem hexEnd : Statement .hexEnd := ⟨_, _, rfl, by decide, by decide, by decide, rfl⟩

theorem hexAbort : Statement .hexAbort := ⟨_, _, rfl, by decide, by decide, by decide, rfl⟩

theorem status : Statement .status := ⟨_, _, rfl, by decide, by decide, by decide, rfl⟩

theorem reset : Statement .reset := ⟨_, _, rfl, by decide, by decide, by decide, rfl⟩

theorem recData : Statement .recData := ⟨rfl, _, rfl, rfl⟩

theorem recEof : Statement .recEof := ⟨rfl, _, rfl, rfl⟩

theorem recEla : Statement .recEla := ⟨rfl, _, rfl, rfl⟩

end Sys2Proof.Laws.CommandWords
end

