-- ==== Sys2Proof/Laws/Sequence.lean ====
section
/-! SUPPORT. Running a list of commands, one command and one list at a time, and the commands of CRC_FEED. -/

namespace Sys2Proof.Machine

@[simp] theorem execAll_nil (s : State) : execAll [] s = .next s := rfl

theorem execAll_cons_of_next {i : Instr} {is : List Instr} {s t : State} (h : exec i s = .next t) :
    execAll (i :: is) s = execAll is t := by
  simp only [execAll, h]

/-- A list that runs to its end hands its last state to the list after it. -/
theorem execAll_append_of_next {is js : List Instr} {s t : State} (h : execAll is s = .next t) :
    execAll (is ++ js) s = execAll js t := by
  induction is generalizing s with
  | nil => cases h; rfl
  | cons i is ih =>
    simp only [List.cons_append, execAll] at h ⊢
    split at h
    · exact ih h
    · cases h
    · cases h

@[simp] theorem crcFeedCommands_zero (x : Nat) : crcFeedCommands x 0 = [] := rfl

@[simp] theorem crcFeedCommands_succ (x w : Nat) :
    crcFeedCommands x (w + 1) = .crcBit (x.testBit w) :: crcFeedCommands x w := rfl

/-- One command for each bit. -/
@[simp] theorem crcFeedCommands_length (x w : Nat) : (crcFeedCommands x w).length = w := by
  induction w with
  | zero => rfl
  | succ w ih => simp [ih]

end Sys2Proof.Machine
end

