-- ==== Sys2Proof/Tests/Slice0.lean ====
section
/-! SUPPORT. Tests of the model: ill-formed terms, header words written out from 30_encoding.md section 4, single steps
against 95_test_vectors.md, and for each obligation with hypotheses a state and operands that meet them. -/

namespace Sys2Proof.Tests

open Sys2Proof.Machine Sys2Proof.Claims

/-! ## States -/

/-- An IDLE block that has run before: CRC and LAST_ERR are not zero, a response was sent and a record delivered. -/
def idleState : State :=
  { State.reset with crc := 0xC1, lastErr := 0x04, pos := 7, resp := [.err .sequence], out := [eofRecord] }

/-- An open encode of 2 bytes at 0x8000FFFC, 16 columns, no prefix, nothing accepted. -/
def openFramer : Framer := Framer.started 16 false 0x8000FFFC 2

/-- The same encode with its 2 bytes accepted. -/
def fullFramer : Framer := (openFramer.accept 0xAA).accept 0xBB

/-- A framer whose next byte, of 5, lies at 0x80010000, its segment's end. -/
def edgeFramer : Framer :=
  { openFramer with len := 5, k := 4, rcnt := 4, rdata := [0, 1, 2, 3], rsum := 6 }

/-- A framer whose current record holds 16 bytes, its capacity. -/
def loadedFramer : Framer :=
  { Framer.opened 16 false 0x00000000 17 with k := 16, rcnt := 16, rdata := List.replicate 16 0x01, rsum := 0x10 }

/-- A block with an open encode. -/
def openState : State := { idleState with framer := openFramer }

/-- A block whose open encode has all its bytes. -/
def fullState : State := { idleState with framer := fullFramer }

/-- The step from a state in which the host has sent these words. -/
def stepOn (s : State) (ws : List Word) : Host.Outcome State Fault Refusal :=
  step { s with input := ws.map Input.word }

/-- What a test reads of an outcome. -/
def seen {α : Type} (o : Host.Outcome State Fault Refusal) (f : State → α) : Option α :=
  match o with
  | .next t => some (f t)
  | .fault _ => none
  | .refused _ => none

/-- What a test reads of a decoding. -/
def instrOf (d : Decoding) : Option Instr :=
  match d with
  | .instr i _ => some i
  | .illegal _ _ => none
  | .incomplete => none

/-! ## Ill-formed terms -/

theorem test_record_rows_are_no_commands :
    [Instr.recData, .recEof, .recEla].all (fun i => i.wellFormed == false) = true := by decide

theorem test_commands_are_well_formed :
    [Instr.crcBit true, .cfgEnc 0xFF true, .hexStart 0 false 0 0, .reset].all (·.wellFormed) = true := by decide

theorem test_record_with_wrong_count :
    ({ count := 2, addr := 0, rtype := 0x00, data := [1], csum := 0 } : Record).wellFormed = false := by decide

theorem test_record_with_wrong_type :
    ({ count := 1, addr := 0, rtype := 0x02, data := [1], csum := 0 } : Record).wellFormed = false := by decide

theorem test_eof_record_is_well_formed : eofRecord.wellFormed = true := by decide

theorem test_operands_that_do_not_fit :
    [AsmCmd.crcBit 2, .crcInt (2 ^ 32), .cfgEnc 256 0, .cfgEnc 0 2, .cfgDec (2 ^ 32), .hexStart 256 0 0 0,
      .hexStart 16 2 0 0, .hexStart 16 0 (2 ^ 32) 0, .hexStart 16 0 0 (2 ^ 32), .hexByte 256].all
        (fun c => c.wellFormed == false) = true := by decide

theorem test_pseudo_operands_that_do_not_fit :
    [AsmCmd.crcFeed 1 0, .crcFeed 1 33, .hexEncode 256 0 0 [], .hexEncode 16 2 0 [],
      .hexEncode 16 0 (2 ^ 32) [], .hexEncode 16 0 0 [256]].all (fun c => c.wellFormed == false) = true := by decide

theorem test_operands_that_fit :
    [AsmCmd.crcBit 1, .crcInt (2 ^ 32 - 1), .cfgEnc 255 1, .hexStart 255 1 (2 ^ 32 - 1) (2 ^ 32 - 1), .hexByte 255,
      .crcFeed (2 ^ 32) 32, .crcFeed (2 ^ 40 + 5) 3, .hexEncode 16 0 0 [255]].all (·.wellFormed) = true := by decide

/-! ## Decoding: words written out from the encodings of 30_encoding.md section 4 -/

theorem test_decode_crc_clr : decode [0x00000001] = .instr .crcClr 1 := by decide

theorem test_decode_crc_bit_0 : decode [0x00000002] = .instr (.crcBit false) 1 := by decide

theorem test_decode_crc_bit_1 : decode [0x00000102] = .instr (.crcBit true) 1 := by decide

theorem test_decode_crc_int : decode [0x00000003, 0x313233FF] = .instr (.crcInt 0x313233FF) 2 := by decide

theorem test_decode_crc_rd : decode [0x00000004] = .instr .crcRd 1 := by decide

/-- V-CFG-10's header. -/
theorem test_decode_cfg_enc : decode [0x00015A08] = .instr (.cfgEnc 0x5A true) 1 := by decide

theorem test_decode_cfg_dec : decode [0x00000009, 0x929E0553] = .instr (.cfgDec 0x929E0553) 2 := by decide

theorem test_decode_hex_start :
    decode [0x00012010, 0x8000FFFC, 0x00000005] = .instr (.hexStart 32 true 0x8000FFFC 5) 3 := by decide

theorem test_decode_hex_byte : decode [0x0000AA11, 0x12345678] = .instr (.hexByte 0xAA) 1 := by decide

theorem test_decode_hex_end : decode [0x00000012] = .instr .hexEnd 1 := by decide

theorem test_decode_hex_abort : decode [0x00000013] = .instr .hexAbort 1 := by decide

theorem test_decode_status : decode [0x00000020] = .instr .status 1 := by decide

theorem test_decode_reset : decode [0x0000003F] = .instr .reset 1 := by decide

/-- A reserved bit of each kind: Z, an unused A, an unused B, the high bits of a one-bit A. -/
theorem test_decode_reserved :
    decode [0x80000001] = .illegal (.reservedBits 0x01) 1 ∧ decode [0x00000112] = .illegal (.reservedBits 0x12) 1 ∧
      decode [0x0001AA11] = .illegal (.reservedBits 0x11) 1 ∧ decode [0x00000302] = .illegal (.reservedBits 0x02) 1 ∧
      decode [0x01000010, 0, 0] = .illegal (.reservedBits 0x10) 3 := by decide

/-- Unassigned opcodes, all zeros and all ones among them, take one word (R75). -/
theorem test_decode_unassigned :
    decode [0x00000000, 1] = .illegal (.unassignedOp 0x00) 1 ∧
      decode [0xFFFFFFFF, 1] = .illegal (.unassignedOp 0xFF) 1 ∧
      decode [0x00000014] = .illegal (.unassignedOp 0x14) 1 := by decide

/-- Words missing (R72). -/
theorem test_decode_incomplete :
    decode [] = .incomplete ∧ decode [0x00000003] = .incomplete ∧ decode [0x00001010, 0] = .incomplete ∧
      decode [0x00000009] = .incomplete := by decide

/-- The record rows by their type byte (R79); no other type byte is a row. -/
theorem test_decode_record_types :
    decodeTableWord 8 0x00 = some .recData ∧ decodeTableWord 8 0x01 = some .recEof ∧
      decodeTableWord 8 0x04 = some .recEla ∧ decodeTableWord 8 0x02 = none ∧ decodeTableWord 8 0x05 = none := by
  decide

/-- A table row's word, its operand words of zeros where the table gives them no bits. -/
theorem test_decode_table_word :
    decodeTableWord 32 0x00000003 = some (.crcInt 0) ∧
      decodeTableWord 96 0x000000020000FFFE00011010 = some (.hexStart 16 true 0xFFFE 2) ∧
      decodeTableWord 32 0x00000202 = none := by decide

/-! ## One step of each command -/

/-- V-CRC-20. -/
theorem test_crc_clr :
    stepOn idleState [0x00000001] = .next { idleState with
      crc := 0x00, lastErr := 0x00, pos := 8, resp := [.err .sequence, .ok []] } := rfl

/-- V-CRC-21. -/
theorem test_crc_bit : seen (stepOn State.reset [0x00000102]) State.crc = some 0x07 := by decide

/-- V-CRC-23. -/
theorem test_crc_bit_no_feedback : seen (stepOn idleState [0x00000102]) State.crc = some 0x82 := by decide

/-- V-CRC-3: CRC starts from zero, whatever it held. -/
theorem test_crc_int :
    seen (stepOn idleState [0x00000003, 0x0000947D]) (fun t => (t.crc, lastWords t)) =
      some (0xC1, some [0x00000000, 0x000000C1]) := by decide +kernel

/-- V-CRC-26. -/
theorem test_crc_int_zero : seen (stepOn idleState [0x00000003, 0]) State.crc = some 0x00 := by decide +kernel

/-- V-CRC-24. -/
theorem test_crc_rd :
    stepOn idleState [0x00000004] = .next { idleState with
      lastErr := 0x00, pos := 8, resp := [.err .sequence, .ok [0x000000C1]] } := rfl

/-- V-CFG-4. -/
theorem test_cfg_enc :
    seen (stepOn idleState [0x00010508]) (fun t => (t.crc, lastWords t)) =
      some (0x46, some [0x00000000, 0x929F0546]) := by decide +kernel

/-- V-CFG-6: the highest pin. -/
theorem test_cfg_enc_high_pin :
    seen (stepOn State.reset [0x0000FF08]) lastWords = some (some [0x00000000, 0x929EFFBB]) := by decide +kernel

/-- V-CFG-12: the magic and the CRC are not checked, and CRC stays. -/
theorem test_cfg_dec :
    seen (stepOn idleState [0x00000009, 0xFFFFFFFF]) (fun t => (t.crc, lastWords t)) =
      some (0xC1, some [0x00000000, 0x000001FF]) := by decide

/-- V-CFG-16: an even byte 1. -/
theorem test_cfg_dec_even :
    seen (stepOn State.reset [0x00000009, 0x12345678]) lastWords = some (some [0x00000000, 0x00000056]) := by decide

/-- The ELA record of L1-4, checksum 0x7A, and the address within the segment. -/
theorem test_hex_start :
    seen (stepOn idleState [0x00001010, 0x8000FFFC, 0x00000002])
      (fun t => (t.framer.pend, t.framer.offb, t.framer.raddr)) =
      some ([{ count := 2, addr := 0, rtype := 0x04, data := [0x80, 0x00], csum := 0x7A }], 0x80000000, 0xFFFC) := by
  decide

/-- A prefix across the segment's end (D12): one byte in the first segment, three in the next. -/
theorem test_hex_start_prefix_crosses :
    seen (stepOn State.reset [0x00011010, 0x0000FFFF, 0x00000002])
      (fun t => (t.framer.pend.length, t.framer.raddr, t.framer.rdata)) = some (3, 0x0000, [0x00, 0x00, 0x02]) := by
  decide

/-- A byte at the segment's end: the record before it is that of L1-5, `:04FFFC0000010203FB`. -/
theorem test_hex_byte_crosses :
    (edgeFramer.accept 0x04).pend.drop 1 =
      [{ count := 4, addr := 0xFFFC, rtype := 0x00, data := [0, 1, 2, 3], csum := 0xFB },
        { count := 2, addr := 0, rtype := 0x04, data := [0x80, 0x01], csum := 0x79 }] := by decide

/-- A byte after a full record starts the next one, at 0x0010. -/
theorem test_hex_byte_wraps :
    (fun f : Framer => (f.rdata, f.rcnt, f.raddr, f.k)) (loadedFramer.accept 0x10) =
      ([0x10], 1, 0x0010, 17) := by decide

/-- The other reading of I3, from 93_implementation_defined.md Part 1a: `:05FFFD000000000111ED`. -/
theorem test_prefix_preload :
    ((Framer.placePrefix true (Framer.opened 16 true 0xFFFD 1) 0xFFFD 1).accept 0x11).closed.pend.drop 1 =
      [{ count := 5, addr := 0xFFFD, rtype := 0x00, data := [0, 0, 0, 1, 0x11], csum := 0xED }, eofRecord] := by decide

/-- HEX_END delivers the three records and counts them. -/
theorem test_hex_end :
    seen (stepOn fullState [0x00000012]) (fun t => (t.out.length, t.framer, lastWords t)) =
      some (4, Framer.idle, some [0x00000000, 0x00000003]) := by decide

/-- Too few bytes (R151): LENGTH_MISMATCH, and nothing is delivered. -/
theorem test_hex_end_too_early :
    seen (stepOn openState [0x00000012]) (fun t => (t.out, t.framer, t.lastErr)) =
      some ([eofRecord], Framer.idle, 0x05) := by decide

/-- HEX_ABORT throws the pending records away. -/
theorem test_hex_abort :
    stepOn openState [0x00000013] = .next { idleState with
      lastErr := 0x00, pos := 8, resp := [.err .sequence, .ok []] } := rfl

/-- STATUS of the open encode: RCNT 0, CRC 0xC1, LAST_ERR 0x04, ACTIVE. -/
theorem test_status :
    seen (stepOn openState [0x00000020]) (fun t => (lastWords t, t.lastErr)) =
      some (some [0x00000000, 0x00C10401, 0x00000000], 0x04) := by decide

/-- STATUS of an encode with 32 columns, the prefix and no byte yet: RCNT 4, bits 2, 1 and 0 set. -/
theorem test_status_columns :
    seen (stepOn { State.reset with framer := Framer.started 32 true 0 0 } [0x00000020]) lastWords =
      some (some [0x00000000, 0x04000007, 0x00000000]) := by decide

/-- RESET leaves OUT. -/
theorem test_reset :
    stepOn openState [0x0000003F] = .next { State.reset with
      pos := 8, resp := [.err .sequence, .ok []], out := [eofRecord] } := rfl

/-- The record rows (log 8): FLUSH, EOF and ELA(OFFB) on the open encode of L1-5. -/
theorem test_record_rows :
    seen (execRecData { idleState with framer := edgeFramer }) (fun t => t.framer.pend.getLast?.map Record.csum) =
        some (some 0xFB) ∧
      seen (execRecEof openState) (fun t => t.framer.pend.getLast?) = some (some eofRecord) ∧
      seen (execRecEla openState) (fun t => t.framer.pend.length) = some 2 := by decide

/-- V-HEX-9's text of a data record. -/
theorem test_record_text :
    recordText { count := 4, addr := 0xFFFC, rtype := 0x00, data := [0, 1, 2, 3], csum := 0xFB } =
      (":04FFFC0000010203FB".toList.map fun c => BitVec.ofNat 8 c.toNat) := by decide +kernel

/-- A line of text (R83, R84). -/
theorem test_assemble_line :
    assembleLine "HEX_START 16, 1, 0xFFFE, 2".toList = some [.hexStart 16 true 0xFFFE 2] ∧
      assembleLine "HEX_ENCODE 16, 0, 0, [7]".toList = some [.hexStart 16 false 0 1, .hexByte 7, .hexEnd] ∧
      assembleLine "CRC_BIT 2".toList = none := by decide +kernel

/-- An illegal header is consumed with its two operand words and leaves an open encode alone (R204). -/
theorem test_illegal_header :
    step { openState with input := [.word 0x01000010, .word 0, .word 0, .word 0x00000020] } = .next { openState with
      input := [.word 0x00000020], pos := 8, lastErr := 0x01, resp := [.err .sequence, .err .illegalCmd] } := rfl

/-- The reset input amid the words of a HEX_START (R231). -/
theorem test_reset_input :
    step { openState with input := [.word 0x00001010, .word 0, .resetPin, .word 0x00000004] } = .next { State.reset with
      input := [.word 0x00000004], pos := 7, resp := [.err .sequence], out := [eofRecord] } := rfl

/-- The host's check: the placed word is the next command. -/
theorem test_with_fetch_word :
    seen (step (State.reset.withFetchWord 32 0x00000102)) State.crc = some 0x07 ∧
      seen (step (State.reset.withFetchWord 32 0x00000010)) (fun t => t.lastErr) = some 0x02 := by decide

/-! ## Witnesses: what each statement assumes, met by a concrete state and operands -/

theorem openFramer_open : openFramer.OpenLaw where
  cols_legal := by decide
  k_le_len := by decide
  offb_aligned := by decide
  offb_le_next := by decide
  position := by decide
  within_segment := by decide
  rcnt_le_cols := by decide
  rdata_length := by decide
  running_sum := by decide
  fits := by decide
  starts_with_ela := ⟨_, _, rfl, by decide⟩
  pend_checksums := by decide
  empty_only_at_start := by decide

/-- At the segment's end: offset 0x10000 (R38 (b)). -/
theorem edgeFramer_open : edgeFramer.OpenLaw where
  cols_legal := by decide
  k_le_len := by decide
  offb_aligned := by decide
  offb_le_next := by decide
  position := by decide
  within_segment := by decide
  rcnt_le_cols := by decide
  rdata_length := by decide
  running_sum := by decide
  fits := by decide
  starts_with_ela := ⟨_, _, rfl, by decide⟩
  pend_checksums := by decide
  empty_only_at_start := by decide

/-- All bytes accepted: K = LEN. -/
theorem fullFramer_open : fullFramer.OpenLaw where
  cols_legal := by decide
  k_le_len := by decide
  offb_aligned := by decide
  offb_le_next := by decide
  position := by decide
  within_segment := by decide
  rcnt_le_cols := by decide
  rdata_length := by decide
  running_sum := by decide
  fits := by decide
  starts_with_ela := ⟨_, _, rfl, by decide⟩
  pend_checksums := by decide
  empty_only_at_start := by decide

theorem idleState_inv : idleState.Inv := ⟨fun _ => rfl, fun h => absurd h (by decide)⟩

theorem openState_inv : openState.Inv := ⟨fun h => absurd h (by decide), fun _ => openFramer_open⟩

theorem fullState_inv : fullState.Inv := ⟨fun h => absurd h (by decide), fun _ => fullFramer_open⟩

/-- A header of this opcode with a fixed bit wrong. -/
abbrev WrongBit (op : Byte) (mask value h : Word) : Prop := opField h = op ∧ h &&& mask ≠ value

/-- For every command a header of its opcode with one fixed bit wrong: what `RefusesReserved` assumes in the statements
about that command. -/
theorem witness_RefusesReserved :
    WrongBit 0x01 0xFFFFFFFF 0x00000001 0x00000101 ∧
      WrongBit 0x02 0xFFFFFEFF 0x00000002 0x00000202 ∧
      WrongBit 0x03 0xFFFFFFFF 0x00000003 0x00010003 ∧
      WrongBit 0x04 0xFFFFFFFF 0x00000004 0x80000004 ∧
      WrongBit 0x08 0xFFFE00FF 0x00000008 0x00020008 ∧
      WrongBit 0x09 0xFFFFFFFF 0x00000009 0x00000109 ∧
      WrongBit 0x10 0xFFFE00FF 0x00000010 0x00020010 ∧
      WrongBit 0x11 0xFFFF00FF 0x00000011 0x00010011 ∧
      WrongBit 0x12 0xFFFFFFFF 0x00000012 0x00000112 ∧
      WrongBit 0x13 0xFFFFFFFF 0x00000013 0x01000013 ∧
      WrongBit 0x20 0xFFFFFFFF 0x00000020 0x00000120 ∧
      WrongBit 0x3F 0xFFFFFFFF 0x0000003F 0x0100003F := by decide

/-- The host has sent that header and the operand words its opcode calls for. -/
theorem witness_RefusesReserved_sent :
    Sends { openState with input := [.word 0x00020010, .word 0, .word 1, .resetPin] } (0x00020010 :: [0, 1])
        [.resetPin] ∧
      Sends { openState with input := [.word 0x00010003, .word 0] } (0x00010003 :: [0]) [] ∧
      Sends { openState with input := [.word 0x00000101] } (0x00000101 :: []) [] := ⟨rfl, rfl, rfl⟩

theorem witness_LeadingZerosLeaveCrc8 : 0 < 2 ^ 0 ∧ 0xFF < 2 ^ 8 ∧ 0x947D < 2 ^ 24 := by decide

/-- One bit and 32 bits from a zero register, and an x that w bits do not hold. -/
theorem witness_CrcFeedGivesCrc8 :
    (1 ≤ 1 ∧ 1 ≤ 32 ∧ 1 < 2 ^ 1 ∧ State.reset.crc = 0x00) ∧
      (1 ≤ 32 ∧ 32 ≤ 32 ∧ 0xFFFFFFFF < 2 ^ 32 ∧ (openState.setCrc 0).crc = 0x00) ∧
      (1 ≤ 3 ∧ 3 ≤ 32 ∧ ¬ 2 ^ 40 + 5 < 2 ^ 3 ∧
        crcFeedCommands (2 ^ 40 + 5) 3 = [.crcBit true, .crcBit false, .crcBit true]) := by decide

theorem witness_CfgEncBuildsTheWord :
    0x929E05 = 0x494F <<< 9 ||| (if false then 1 else 0) <<< 8 ||| (5 : Byte).toNat ∧
      0x929FFF = 0x494F <<< 9 ||| (if true then 1 else 0) <<< 8 ||| (255 : Byte).toNat := by decide

theorem witness_CfgDecInvertsCfgEnc : fullWord 255 true = fullWord (0xFF : Byte) (!false) := rfl

/-- A sum that is a multiple of 256 and one that is not. -/
theorem witness_ChecksumFormula :
    256 = (2 : Byte).toNat + ((0 : Half).extractLsb' 8 8).toNat + ((0 : Half).extractLsb' 0 8).toNat + (0 : Byte).toNat
        + ([0xFE, 0x00].map (BitVec.toNat (w := 8))).sum ∧
      0xFF + 0xFC + 1 = (1 : Byte).toNat + ((0xFFFC : Half).extractLsb' 8 8).toNat
        + ((0xFFFC : Half).extractLsb' 0 8).toNat + (0 : Byte).toNat + ([0x00].map (BitVec.toNat (w := 8))).sum := by
  decide

theorem witness_RunningSumGivesTheChecksum :
    openFramer.OpenLaw ∧ edgeFramer.OpenLaw ∧ edgeFramer.rcnt = 4 := ⟨openFramer_open, edgeFramer_open, rfl⟩

theorem witness_ElaAndEofRecords :
    (0x80000000 : Word).toNat % 0x10000 = 0 ∧ (0xFFFF0000 : Word).toNat % 0x10000 = 0 := by decide

/-- One framer and address for each branch of PLACE: the crossing, the full record, neither. -/
theorem witness_PlaceOneStreamByte :
    0x80010000 - edgeFramer.offb.toNat = 0x10000 ∧
      (16 - loadedFramer.offb.toNat ≠ 0x10000 ∧ loadedFramer.rcnt.toNat = loadedFramer.cols.toNat) ∧
      (0x8000FFFC - openFramer.offb.toNat ≠ 0x10000 ∧ openFramer.rcnt.toNat ≠ openFramer.cols.toNat) ∧
      edgeFramer.currentRecord =
        { count := edgeFramer.rcnt.setWidth 8, addr := edgeFramer.raddr, rtype := 0x00, data := edgeFramer.rdata
          csum := BitVec.ofNat 8 ((0x100 - (edgeFramer.rcnt.toNat + (edgeFramer.raddr.extractLsb' 8 8).toNat
            + (edgeFramer.raddr.extractLsb' 0 8).toNat + 0x00 + edgeFramer.rsum.toNat) % 0x100) % 0x100) } := by
  decide

theorem witness_RecordTextIsHexOfItsBytes :
    eofRecord.CountLaw ∧ edgeFramer.currentRecord.CountLaw ∧ 0x46 ∈ (recordText eofRecord).drop 1 := by decide

/-- Each clause of HEX_START at its boundary: an open encode; 17 columns; a stream that ends one past the address space,
without and with the prefix; one that ends at it. -/
theorem witness_HexStartOpensAnEncode :
    openState.framer.hstate = .active ∧ idleState.framer.hstate = .idle ∧ ((17 : Byte) ≠ 16 ∧ (17 : Byte) ≠ 32) ∧
      2 ^ 32 < (0xFFFFFFFF : Word).toNat + (if false then 4 else 0) + (2 : Word).toNat ∧
      2 ^ 32 < (0xFFFFFFFD : Word).toNat + (if true then 4 else 0) + (0 : Word).toNat ∧
      (0xFFFFFFFF : Word).toNat + (if false then 4 else 0) + (1 : Word).toNat ≤ 2 ^ 32 ∧
      (0xFFFFFFFC : Word).toNat + (if true then 4 else 0) + (0 : Word).toNat ≤ 2 ^ 32 ∧
      (0x80000000 : Word) = BitVec.ofNat 32 ((0x8000FFFC : Word).toNat - (0x8000FFFC : Word).toNat % 0x10000) ∧
      (0x0000FFFD : Word).toNat + 4 + (0 : Word).toNat ≤ 2 ^ 32 := by decide

theorem witness_HexBytePlacesOneByte :
    idleState.framer.hstate = .idle ∧
      (fullState.framer.hstate = .active ∧ fullState.framer.k = fullState.framer.len) ∧
      (openState.framer.hstate = .active ∧ openState.framer.k ≠ openState.framer.len ∧ openState.framer.OpenLaw ∧
        0x8000FFFC = openState.framer.base.toNat + 4 * openState.framer.pre.toNat + openState.framer.k.toNat) :=
  ⟨rfl, ⟨rfl, rfl⟩, rfl, by decide, openFramer_open, rfl⟩

/-- HEX_END with a record to flush, and of an empty encode with none. -/
theorem witness_HexEndDeliversTheRecords :
    idleState.framer.hstate = .idle ∧
      (openState.framer.hstate = .active ∧ openState.framer.k.toNat < openState.framer.len.toNat) ∧
      (fullState.framer.hstate = .active ∧ fullState.framer.len.toNat ≤ fullState.framer.k.toNat ∧
        fullState.framer.rcnt ≠ 0 ∧ fullState.framer.OpenLaw) ∧
      ((Framer.started 16 false 0 0).hstate = .active ∧ (Framer.started 16 false 0 0).rcnt = 0) :=
  ⟨rfl, ⟨rfl, by decide⟩, ⟨rfl, by decide, by decide, fullFramer_open⟩, rfl, rfl⟩

theorem witness_HexAbortDiscardsTheEncode : idleState.Inv ∧ idleState.framer.hstate = .idle := ⟨idleState_inv, rfl⟩

theorem witness_StatusWordFields : idleState.Inv ∧ idleState.framer.hstate = .idle ∧ idleState.crc ≠ 0 :=
  ⟨idleState_inv, rfl, by decide⟩

/-- A failing command, whose code STATUS then shows. -/
theorem witness_StatusReadsTheWords :
    Instr.hexEnd.wellFormed = true ∧
      exec .hexEnd idleState = .next (idleState.raise .sequence) ∧
      (idleState.raise .sequence).resp = idleState.resp ++ [.err .sequence] := ⟨rfl, rfl, rfl⟩

/-- The reset input between commands, and after one word or two of a command's three. -/
theorem witness_ResetInputThrowsAwayAPartialCommand :
    decode [] = .incomplete ∧ decode [0x00000003] = .incomplete ∧ decode [0x00001010, 0] = .incomplete ∧
      ({ openState with input := [.word 0x00001010, .word 0, .resetPin] } : State).input =
        [0x00001010, 0].map Input.word ++ Input.resetPin :: [] := by decide

theorem witness_LastErrHoldsTheResult :
    Instr.status.wellFormed = true ∧ ((Instr.hexByte 0).wellFormed = true ∧ Instr.hexByte 0 ≠ .status) ∧
      decode (arrivedWords [.word 0x000000FF]) = .illegal (.unassignedOp 0xFF) 1 := by decide

theorem witness_UnitsAreIndependent :
    IsCrcUnit (.cfgEnc 5 true) = true ∧ IsCrcUnit .crcRd = true ∧ IsFramerUnit (.hexByte 1) = true ∧
      IsFramerUnit .hexEnd = true := by decide

/-- A legal command and an illegal header, complete. -/
theorem witness_EveryCommandGetsOneResponse :
    decode (arrivedWords [.word 0x00000020, .resetPin]) ≠ .incomplete ∧
      decode (arrivedWords [.word 0x00000000]) ≠ .incomplete := by decide

theorem witness_ErrorCodesStayLegal :
    idleState.lastErr.toNat ≤ 5 ∧ stepOn idleState [0x00000012] = .next { idleState with
      pos := 8, resp := [.err .sequence, .err .sequence] } := ⟨by decide, rfl⟩

/-- Each of the three commands of R202, in the state in which it is out of order and in the other one. -/
theorem witness_SequenceErrors :
    (Instr.hexStart 16 false 0 0).wellFormed = true ∧ openState.framer.hstate = .active ∧
      (Instr.hexByte 0).wellFormed = true ∧ Instr.hexEnd.wellFormed = true ∧ idleState.framer.hstate = .idle := by decide

/-- An illegal command; each framer error; a HEX_START that fails while IDLE. -/
theorem witness_ErrorEffects :
    decode (arrivedWords [.word 0x00000005]) = .illegal (.unassignedOp 0x05) 1 ∧
      seen (exec (.hexByte 1) fullState) State.resp = some (fullState.resp ++ [.err .lengthMismatch]) ∧
      seen (exec (.hexStart 17 false 0 0) idleState) State.resp = some (idleState.resp ++ [.err .invalidColumns]) ∧
      seen (exec (.hexStart 16 false 0xFFFFFFFF 2) idleState) State.resp =
        some (idleState.resp ++ [.err .addressOverflow]) ∧
      seen (exec .hexEnd idleState) State.resp = some (idleState.resp ++ [.err .sequence]) := by decide

/-- A HEX_START with every error at once, and a HEX_BYTE header with a reserved bit while IDLE. -/
theorem witness_ErrorPriority :
    openState.framer.hstate = .active ∧ ¬((17 : Byte) = 16 ∨ (17 : Byte) = 32) ∧
      2 ^ 32 < (0xFFFFFFFF : Word).toNat + (if true then 4 else 0) + (9 : Word).toNat ∧
      (opField 0x00010011 = 0x11 ∧ fieldB 0x00010011 ≠ 0) ∧
      Sends { idleState with input := [.word 0x00010011, .resetPin] } [0x00010011] [.resetPin] :=
  ⟨rfl, by decide, by decide, by decide, rfl⟩

theorem witness_ReservedBitsAreIllegal :
    (⟨.hexByte, 0x00000011, 0xFFFF00FF⟩ : Row) ∈ opTable ∧
      (assignedOp (opField 0x01000010) = true ∧ (∀ r ∈ opTable, 0x01000010 &&& r.mask ≠ r.value) ∧
        ([0, 0] : List Word).length = operandWords 0x01000010) ∧
      Sends { openState with input := [.word 0x01000010, .word 0, .word 0] } (0x01000010 :: [0, 0]) [] := by decide

theorem witness_UnassignedOpcodesAreIllegal :
    opField 0x00000000 ∉ ([0x01, 0x02, 0x03, 0x04, 0x08, 0x09, 0x10, 0x11, 0x12, 0x13, 0x20, 0x3F] : List Byte) ∧
      opField 0xFFFFFFFF ∉ ([0x01, 0x02, 0x03, 0x04, 0x08, 0x09, 0x10, 0x11, 0x12, 0x13, 0x20, 0x3F] : List Byte) ∧
      Sends { openState with input := [.word 0xFFFFFFFF, .word 1] } [0xFFFFFFFF] [.word 1] := by decide

/-- Words enough, for every length; a command one word short; nothing sent. -/
theorem witness_CommandLengthFromTheOpcode :
    (operandWords 0x00000001 ≤ ([] : List Word).length ∧ operandWords 0x00000003 ≤ ([7] : List Word).length ∧
        operandWords 0x00000010 ≤ ([7, 7] : List Word).length) ∧
      (([7] : List Word).length < operandWords 0x00000010 ∧
        Sends { openState with input := [.word 0x00000010, .word 7] } (0x00000010 :: [7]) []) ∧
      openState.input = [] := by decide

theorem witness_ResponseWords :
    (fullState.framer.hstate = .active ∧ fullState.framer.len.toNat ≤ fullState.framer.k.toNat) ∧
      (Response.err .sequence).words = [0x00000004] := by decide

theorem witness_DecodeOfEncode :
    (Instr.hexStart 255 true 0xFFFFFFFF 0xFFFFFFFF).wellFormed = true ∧ (Instr.crcBit true).wellFormed = true := by
  decide

theorem witness_EncodeOfDecode :
    decode [0x00000003, 0x00000012, 0x00000012] = .instr (.crcInt 0x12) 2 ∧ decode [0x00000012] = .instr .hexEnd 1 := by
  decide

/-- CRC_FEED takes the low bits of an x of any size, and no more than 32 of them (R85). -/
theorem test_assemble_crc_feed :
    assembleWords (.crcFeed (2 ^ 40 + 5) 3) = some [0x00000102, 0x00000002, 0x00000102] ∧
      assembleWords (.crcFeed 1 33) = none := by decide

theorem witness_StepRunsTheDecodedCommand :
    decode (arrivedWords ({ openState with input := [.word 0x0000AA11, .resetPin] } : State).input) =
      .instr (.hexByte 0xAA) 1 := by decide

/-- A wait keeps the state, so a step from it is a next state. -/
theorem witness_IdleFramerStaysAtItsResetValues :
    idleState.framer.IdleLaw ∧ step idleState = .next idleState ∧ openState.framer.IdleLaw :=
  ⟨fun _ => rfl, rfl, fun h => absurd h (by decide)⟩

/-- A byte across the segment's end and the end of an encode, from states that meet the invariant. -/
theorem witness_EveryStepKeepsTheInvariant :
    ({ openState with framer := edgeFramer } : State).Inv ∧ fullState.Inv ∧
      (seen (stepOn { openState with framer := edgeFramer } [0x0000FF11]) (fun t => t.lastErr)).isSome = true ∧
      (seen (stepOn fullState [0x00000012]) (fun t => t.lastErr)).isSome = true :=
  ⟨⟨fun h => absurd h (by decide), fun _ => edgeFramer_open⟩, fullState_inv, by decide, by decide⟩

theorem witness_EveryStepKeepsTheRecordsSound :
    fullState.Inv ∧ fullState.RecordsSound ∧
      (seen (stepOn fullState [0x00000012]) (fun t => t.lastErr)).isSome = true :=
  ⟨fullState_inv, by decide, by decide⟩

/-- A step that delivers. -/
theorem witness_OutGrowsOnlyAtHexEnd :
    seen (stepOn fullState [0x00000012]) State.out = some (fullState.out ++ fullState.framer.closed.pend) := by decide

theorem witness_OnlyListedCommandsWriteCrc :
    WritesCrc .hexEnd = false ∧ (seen (exec .hexEnd fullState) State.crc).isSome = true := by decide

/-- A step that opens an encode and one that closes it by an error. -/
theorem witness_OnlyFramerCommandsOpenAndClose :
    (idleState.framer.hstate = .idle ∧
        seen (stepOn idleState [0x00001010, 0, 0]) (fun t => t.framer.hstate) = some .active) ∧
      (fullState.framer.hstate = .active ∧
        seen (stepOn fullState [0x0000AA11]) (fun t => t.framer.hstate) = some .idle) := by decide

/-- A buffer whose stream ends at the address space's end, with the prefix, and an IDLE state. -/
theorem witness_HexEncodeDeliversIhexEncode :
    Encodable [0xAA, 0xBB] 0xFFFFFFFA 32 true ∧ Encodable [0xAA] 0xFFFFFFFF 16 false ∧ idleState.Inv ∧
      idleState.framer.hstate = .idle := ⟨by decide, by decide, idleState_inv, rfl⟩

/-- An encode with an ELA record behind a data record. -/
theorem witness_EncodeShape :
    Encodable [0xAA, 0xBB] 0x0000FFFF 16 false ∧
      (ihexEncode [0xAA, 0xBB] 0x0000FFFF 16 false).map Record.rtype = [0x04, 0x00, 0x04, 0x00, 0x01] := by decide

/-- One segment filled to its end by buffer and prefix, and an empty stream. -/
theorem witness_RecordCountInOneSegment :
    (Encodable [0xAA, 0xBB] 0x0000FFFA 16 true ∧ 6 = [0xAA, 0xBB].length + (if true then 4 else 0) ∧
        (0x0000FFFA : Word).toNat % 0x10000 + 6 ≤ 0x10000 ∧ 1 = (6 + (16 : Byte).toNat - 1) / (16 : Byte).toNat) ∧
      (Encodable [] 0x00000000 32 false ∧ 0 = ([] : List Byte).length + (if false then 4 else 0) ∧
        0 = (0 + (32 : Byte).toNat - 1) / (32 : Byte).toNat) := by decide

/-- A stream in two segments, and an empty one. -/
theorem witness_OneElaPerSegment :
    Encodable [0xAA, 0xBB] 0x0000FFFF 16 false ∧ 2 = [0xAA, 0xBB].length + (if false then 4 else 0) ∧
      Encodable [] 0x00010000 16 false := by decide

theorem witness_EncodeReadsBackAsTheStream :
    Encodable [0xAA, 0xBB] 0x0000FFFD 16 true ∧ Encodable [] 0xFFFFFFFF 32 false := by decide

/-- The prefix inside its segment, and with 3, 2 and 1 of its bytes before the segment's end. -/
theorem witness_EmptyBufferEncode :
    (Encodable [] 0x8000FFFC 16 true ∧ 0xFFFC = (0x8000FFFC : Word).toNat % 0x10000 ∧
        (0x80000000 : Word) = BitVec.ofNat 32 ((0x8000FFFC : Word).toNat - 0xFFFC)) ∧
      (∀ m ∈ [1, 2, 3], Encodable [] (BitVec.ofNat 32 (0x10000 - m)) 16 true ∧
        0x10000 - m = (BitVec.ofNat 32 (0x10000 - m) : Word).toNat % 0x10000 ∧ 1 ≤ m ∧ m ≤ 3) := by decide

end Sys2Proof.Tests
end

section
/-! SUPPORT. The proofs about the registers of 10_state.md: an IDLE framer holds its reset values (R37), and the fields
of the status words (R36). -/

namespace Sys2Proof.Proofs.StateRegisters

open Sys2Proof.Machine

/-! ## R37 -/

/-- R37 speaks of IDLE framers only. -/
theorem idleLaw_of_active {f : Framer} (h : f.hstate = .active) : f.IdleLaw := fun hidle =>
  absurd (h.symm.trans hidle) (by decide)

/-- Every effect of a step leaves the framer alone, puts it to its IDLE values, or leaves it ACTIVE (R23). -/
theorem step_keeps_idleLaw {s t : State} (hs : s.framer.IdleLaw) (h : step s = .next t) : t.framer.IdleLaw :=
  step_keeps (P := fun f _ => f.IdleLaw) h hs
    (toIdle := fun _ => rfl)
    (toOpen := fun _ _ _ _ _ _ _ => idleLaw_of_active (Framer.started_hstate ..))
    (toNext := fun d hactive _ => idleLaw_of_active <| by
      rw [Framer.accept_hstate, Framer.place_hstate, hactive])
    (toOut := fun _ _ _ => rfl)

/-- Settles O48: R37 is kept by each effect a step can have on the framer. -/
theorem idleFramerStaysAtItsResetValues : Obligations.IdleFramerStaysAtItsResetValues := fun _ _ =>
  step_keeps_idleLaw

/-! ## R36 -/

theorem getLsbD_bitWord (b : Bool) (i : Nat) : (bitWord b).getLsbD i = (decide (i = 0) && b) := by
  cases b <;> simp [bitWord, BitVec.getLsbD_one]

theorem hstateBit_eq (h : HState) : h.bit = decide (h = .active) := by
  cases h <;> rfl

/-- Which register each bit of S0 shows (R36): the fields that S0 is or-ed together from do not overlap, because each
register is no wider than its field. -/
theorem getLsbD_statusS0 (s : State) (i : Nat) :
    (statusS0 s).getLsbD i =
      if 24 ≤ i then s.framer.rcnt.getLsbD (i - 24)
      else if 16 ≤ i then s.crc.getLsbD (i - 16)
      else if 8 ≤ i then s.lastErr.getLsbD (i - 8)
      else if i = 2 then decide (s.framer.cols = 32)
      else if i = 1 then s.framer.pre
      else if i = 0 then decide (s.framer.hstate = .active)
      else false := by
  have hrcnt : 6 ≤ i - 24 → s.framer.rcnt.getLsbD (i - 24) = false := BitVec.getLsbD_of_ge _ _
  have hcrc : 8 ≤ i - 16 → s.crc.getLsbD (i - 16) = false := BitVec.getLsbD_of_ge _ _
  have herr : 8 ≤ i - 8 → s.lastErr.getLsbD (i - 8) = false := BitVec.getLsbD_of_ge _ _
  simp only [statusS0, BitVec.getLsbD_or, BitVec.getLsbD_shiftLeft, BitVec.getLsbD_setWidth, getLsbD_bitWord,
    hstateBit_eq]
  split_ifs <;> grind

/-- A field of a word is what its bits are. -/
theorem extractLsb'_eq_of_getLsbD {w : Word} {start len : Nat} {x : BitVec len}
    (h : ∀ i < len, w.getLsbD (start + i) = x.getLsbD i) : w.extractLsb' start len = x :=
  BitVec.eq_of_getLsbD_eq fun i hi => by simp only [BitVec.getLsbD_extractLsb', hi, decide_true, Bool.true_and, h i hi]

theorem statusS0_reserved (s : State) : (statusS0 s).extractLsb' 3 5 = 0 :=
  extractLsb'_eq_of_getLsbD fun i hi => by
    rw [getLsbD_statusS0, if_neg (by omega), if_neg (by omega), if_neg (by omega), if_neg (by omega),
      if_neg (by omega), if_neg (by omega)]
    exact BitVec.getLsbD_zero.symm

theorem statusS0_lastErr (s : State) : (statusS0 s).extractLsb' 8 8 = s.lastErr :=
  extractLsb'_eq_of_getLsbD fun i hi => by
    rw [getLsbD_statusS0, if_neg (by omega), if_neg (by omega), if_pos (by omega), Nat.add_sub_cancel_left]

theorem statusS0_crc (s : State) : (statusS0 s).extractLsb' 16 8 = s.crc :=
  extractLsb'_eq_of_getLsbD fun i hi => by
    rw [getLsbD_statusS0, if_neg (by omega), if_pos (by omega), Nat.add_sub_cancel_left]

theorem statusS0_rcnt (s : State) : (statusS0 s).extractLsb' 24 8 = s.framer.rcnt.setWidth 8 :=
  extractLsb'_eq_of_getLsbD fun i hi => by
    rw [getLsbD_statusS0, if_pos (by omega), Nat.add_sub_cancel_left, BitVec.getLsbD_setWidth, decide_eq_true hi,
      Bool.true_and]

/-- With the framer at its IDLE values the status words show CRC and LAST_ERR only (R36, R37). -/
theorem status_of_framer_idle {s : State} (h : s.framer = Framer.idle) :
    statusS0 s = s.crc.setWidth 32 <<< 16 ||| s.lastErr.setWidth 32 <<< 8 ∧ statusS1 s = 0 := by
  simp [statusS0, statusS1, h, Framer.idle, bitWord, HState.bit]

/-- Settles O28: each field is read off the bits of S0; IDLE framer fields are 0 by R37. -/
theorem statusWordFields : Obligations.StatusWordFields :=
  ⟨fun s => ⟨getLsbD_statusS0 s 0, getLsbD_statusS0 s 1, getLsbD_statusS0 s 2, statusS0_reserved s, statusS0_lastErr s,
      statusS0_crc s, statusS0_rcnt s, rfl⟩,
    fun _ hinv hidle => status_of_framer_idle (hinv.idle hidle)⟩

end Sys2Proof.Proofs.StateRegisters
end

section
/-! SUPPORT. The proofs about the encoding of 30_encoding.md: which headers are commands and which are illegal (R74,
R75), and the words of the responses (R77). -/

namespace Sys2Proof.Proofs.Encoding

open Sys2Proof.Machine Sys2Proof.Claims Sys2Proof.Proofs.StateRegisters

/-! ## R74 -/

/-- The table's name for a command; the record rows are not in the table of R73. -/
def opOf : Instr → Option Op
  | .crcClr => some .crcClr
  | .crcBit _ => some .crcBit
  | .crcInt _ => some .crcInt
  | .crcRd => some .crcRd
  | .cfgEnc _ _ => some .cfgEnc
  | .cfgDec _ => some .cfgDec
  | .hexStart _ _ _ _ => some .hexStart
  | .hexByte _ => some .hexByte
  | .hexEnd => some .hexEnd
  | .hexAbort => some .hexAbort
  | .status => some .status
  | .reset => some .reset
  | .recData | .recEof | .recEla => none

/-- Operand assembly keeps the command, whatever the operands are. -/
@[simp] theorem opOf_assembleOperands (op : Op) (h w1 w2 : Word) : opOf (assembleOperands op h w1 w2) = some op := by
  cases op <;> rfl

/-- The rows of the table are of different commands. -/
theorem row_eq_of_op_eq {r r' : Row} (hm : r ∈ opTable) (hm' : r' ∈ opTable) (h : r.op = r'.op) : r = r' := by
  have hall : ∀ r ∈ opTable, ∀ r' ∈ opTable, r.op = r'.op → r = r' := by decide
  exact hall r hm r' hm' h

theorem row_selects_iff {r : Row} {h : Word} : r.selects h = true ↔ h &&& r.mask = r.value := beq_iff_eq

/-- Only a header that selects a row decodes to that row's command: the command names the row. -/
theorem selects_of_decodeCommand {r : Row} {h w1 w2 : Word} {used : Nat} (hm : r ∈ opTable)
    (hd : decodeCommand h w1 w2 = .instr (assembleOperands r.op h w1 w2) used) : r.selects h = true := by
  cases hr : selectRow h with
  | none =>
    obtain ⟨why, hill⟩ := decodeCommand_of_none (w1 := w1) (w2 := w2) hr
    rw [hill] at hd
    cases hd
  | some r' =>
    obtain ⟨hm', hs'⟩ := selectRow_eq_some hr
    rw [decodeCommand_of_selects hm' hs'] at hd
    have hop : r'.op = r.op := by simpa using congrArg opOf (Decoding.instr.inj hd).1
    rwa [← row_eq_of_op_eq hm' hm hop]

/-- A header that selects no row is consumed with its operand words and raises ILLEGAL_CMD (R74, R75). -/
theorem step_of_selectRow_none {s : State} {h : Word} {ws : List Word} {rest : List Input}
    (hn : selectRow h = none) (hl : ws.length = operandWords h) (hs : Sends s (h :: ws) rest) :
    step s = .next (afterIllegal s rest) := by
  obtain ⟨why, hd⟩ := decodeCommand_of_none (w1 := (ws ++ arrivedWords rest).getD 0 0)
    (w2 := (ws ++ arrivedWords rest).getD 1 0) hn
  have hdrop : s.input.drop (1 + operandWords h) = rest := by
    rw [hs, ← hl, Nat.add_comm, ← List.length_cons (a := h), drop_sent]
  rw [step_of_illegal ((decode_sent hl.ge hs).trans hd), ← hdrop]
  rfl

/-- Settles O39: the row a header selects is told by the command it decodes to. -/
theorem reservedBitsAreIllegal : Obligations.ReservedBitsAreIllegal := by
  refine ⟨fun h w1 w2 r hm => ⟨fun hmatch => ?_, fun hd => ?_⟩, fun s h ws rest _ hne hl hs => ?_⟩
  · exact decodeCommand_of_selects hm (row_selects_iff.mpr hmatch)
  · exact row_selects_iff.mp (selects_of_decodeCommand hm hd)
  · have hn : selectRow h = none := selectRow_eq_none.mpr fun r hm => by
      simpa [Row.selects] using hne r hm
    exact step_of_selectRow_none hn hl hs

/-! ## R75 -/

/-- The opcodes of R73, in the order of the table. -/
theorem opTable_opcodes : opTable.map (fun r => opField r.value) =
    [0x01, 0x02, 0x03, 0x04, 0x08, 0x09, 0x10, 0x11, 0x12, 0x13, 0x20, 0x3F] := by decide

/-- A header whose opcode no row has selects no row. -/
theorem selectRow_none_of_unassigned {h : Word} (hop : opField h ∉ opTable.map (fun r => opField r.value)) :
    selectRow h = none := by
  refine selectRow_eq_none.mpr fun r hm => ?_
  by_contra hc
  have hsel : opField h = opField r.value := opField_of_selects hm (by simpa using hc)
  exact hop (hsel ▸ List.mem_map_of_mem hm)

/-- Only three assigned opcodes call for operand words (R72). -/
theorem operandWords_of_unassigned {h : Word} (hop : opField h ∉ opTable.map (fun r => opField r.value)) :
    operandWords h = 0 := by
  rw [opTable_opcodes] at hop
  have h03 : opField h ≠ 0x03 := fun he => hop (by rw [he]; decide)
  have h09 : opField h ≠ 0x09 := fun he => hop (by rw [he]; decide)
  have h10 : opField h ≠ 0x10 := fun he => hop (by rw [he]; decide)
  simp only [operandWords, h03, h09, h10, or_self, if_false]

/-- Settles O40: the rows' opcodes are the assigned ones, and no header selects two rows. -/
theorem unassignedOpcodesAreIllegal : Obligations.UnassignedOpcodesAreIllegal := by
  refine ⟨fun s h rest hop hs => ?_, fun h w1 w2 => ?_⟩
  · rw [← opTable_opcodes] at hop
    exact step_of_selectRow_none (ws := []) (selectRow_none_of_unassigned hop) (operandWords_of_unassigned hop).symm hs
  · cases hr : selectRow h with
    | none =>
      obtain ⟨why, hd⟩ := decodeCommand_of_none (w1 := w1) (w2 := w2) hr
      exact .inr ⟨selectRow_eq_none.mp hr, why, _, hd⟩
    | some r =>
      obtain ⟨hm, hs⟩ := selectRow_eq_some hr
      have honly : ∀ r' ∈ opTable, r'.selects h = true → r' = r := fun r' hm' hs' =>
        Option.some.inj ((selectRow_of_selects hm' hs').symm.trans hr)
      exact .inl ⟨⟨r, hm, hs, honly⟩, _, _, decodeCommand_of_selects hm hs⟩

/-! ## R77 -/

theorem lastWords_respond (s : State) (r : Response) : lastWords (s.respond r) = some r.words := by
  simp [lastWords]

theorem lastWords_finishOk (s : State) (vs : List Word) : lastWords (s.finishOk vs) = some (0 :: vs) :=
  lastWords_respond _ _

theorem lastWords_raise (s : State) (e : ErrCode) : lastWords (s.raise e) = some [e.code.setWidth 32] :=
  lastWords_respond _ _

/-- An error response shows its code in the low byte and zeros above. -/
theorem errorWord_fields (e : ErrCode) :
    (e.code.setWidth 32).extractLsb' 0 8 = e.code ∧ (e.code.setWidth 32).extractLsb' 8 24 = 0 := by
  cases e <;> decide

/-- Every response is P0 with its code; an error has no value word. -/
theorem response_words_fields (r : Response) : ∃ p0 vs, r.words = p0 :: vs ∧ p0.extractLsb' 0 8 = r.code ∧
    p0.extractLsb' 8 24 = 0 ∧ ((∃ e, r = .err e) → vs = []) := by
  cases r with
  | ok values => exact ⟨0, values, rfl, rfl, rfl, fun ⟨_, he⟩ => by cases he⟩
  | err e => exact ⟨_, [], rfl, (errorWord_fields e).1, (errorWord_fields e).2, fun _ => rfl⟩

/-- The bits of CFG_DEC's value word: the pin, the polarity, and zeros. -/
theorem getLsbD_cfgValue (pin : Byte) (h : Bool) (i : Nat) :
    (cfgValue pin h).getLsbD i = if 9 ≤ i then false else if i = 8 then h else pin.getLsbD i := by
  simp only [cfgValue, BitVec.getLsbD_or, BitVec.getLsbD_shiftLeft, BitVec.getLsbD_setWidth, getLsbD_bitWord]
  split_ifs with h9 h8
  · simp [BitVec.getLsbD_of_ge pin i (by omega), show i - 8 ≠ 0 by omega]
  · simp [h8, BitVec.getLsbD_of_ge]
  · simp [show i < 8 by omega, show i < 32 by omega]

theorem cfgValue_pin (pin : Byte) (h : Bool) : (cfgValue pin h).extractLsb' 0 8 = pin :=
  extractLsb'_eq_of_getLsbD fun i hi => by
    rw [getLsbD_cfgValue, if_neg (by omega), if_neg (by omega), Nat.zero_add]

theorem cfgValue_reserved (pin : Byte) (h : Bool) : (cfgValue pin h).extractLsb' 9 23 = 0 :=
  extractLsb'_eq_of_getLsbD fun i hi => by
    rw [getLsbD_cfgValue, if_pos (by omega)]
    exact BitVec.getLsbD_zero.symm

/-- HEX_END with every byte in (R151). -/
theorem exec_hexEnd_of_full {s : State} (hactive : s.framer.hstate = .active)
    (hfull : s.framer.len.toNat ≤ s.framer.k.toNat) :
    exec .hexEnd s = .next ((s.commit s.framer.closed).finishOk [BitVec.ofNat 32 s.framer.closed.pend.length]) := by
  simp [exec, execHexEnd, hactive, Nat.not_lt.mpr hfull]

/-- The command's response is one word. -/
def AnswersOneWord (o : Host.Outcome State Fault Refusal) : Prop := ∃ t p0, o = .next t ∧ lastWords t = some [p0]

theorem answersOneWord_finishOk (s : State) : AnswersOneWord (.next (s.finishOk [])) :=
  ⟨_, _, rfl, lastWords_finishOk s []⟩

theorem answersOneWord_raise (s : State) (e : ErrCode) : AnswersOneWord (.next (s.raise e)) :=
  ⟨_, _, rfl, lastWords_raise s e⟩

theorem answersOneWord_hexStart (columns : Byte) (p : Bool) (base n : Word) (s : State) :
    AnswersOneWord (execHexStart columns p base n s) := by
  unfold execHexStart
  split_ifs
  · exact answersOneWord_raise s .sequence
  · exact answersOneWord_raise s .invalidColumns
  · exact answersOneWord_raise s .addressOverflow
  · exact answersOneWord_finishOk _

theorem answersOneWord_hexByte (d : Byte) (s : State) : AnswersOneWord (execHexByte d s) := by
  unfold execHexByte
  split_ifs
  · exact answersOneWord_raise s .sequence
  · exact answersOneWord_raise s .lengthMismatch
  · exact answersOneWord_finishOk _

/-- Settles O42: each command ends in an OK with its value words or in an error, and a response's words follow from
which of the two it is. -/
theorem responseWords : Obligations.ResponseWords := by
  refine ⟨response_words_fields, fun x s => ?crcInt, fun s => ?crcRd, fun pin h s => ?cfgEnc, fun w s => ?cfgDec,
    fun s hactive hfull => ?hexEnd, fun s => ?status, fun i s hi => ?others⟩
  case crcInt => exact ⟨_, rfl, lastWords_finishOk _ _⟩
  case crcRd => exact ⟨_, rfl, lastWords_finishOk _ _⟩
  case cfgEnc => exact ⟨_, rfl, lastWords_finishOk _ _⟩
  case cfgDec =>
    exact ⟨_, _, rfl, lastWords_finishOk _ _, cfgValue_pin _ _, getLsbD_cfgValue _ _ 8, cfgValue_reserved _ _⟩
  case hexEnd => exact ⟨_, s.framer.closed.pend, exec_hexEnd_of_full hactive hfull, rfl, lastWords_finishOk _ _⟩
  case status => exact ⟨_, rfl, lastWords_respond _ _⟩
  case others =>
    obtain rfl | ⟨v, rfl⟩ | ⟨columns, p, base, n, rfl⟩ | ⟨d, rfl⟩ | rfl | rfl := hi
    · exact answersOneWord_finishOk (s.setCrc 0x00)
    · exact answersOneWord_finishOk (s.setCrc (crcStep s.crc v))
    · exact answersOneWord_hexStart columns p base n s
    · exact answersOneWord_hexByte d s
    · exact answersOneWord_finishOk s.abandon
    · exact answersOneWord_finishOk s.resetRegisters

end Sys2Proof.Proofs.Encoding
end

section
/-! SUPPORT. The proofs about the CRC commands of 40_crc8.md: what a step of the register does to each bit (R100), the
commands in every state (R102 to R105), and the headers they refuse (R74). -/

namespace Sys2Proof.Proofs.Crc

open Sys2Proof.Machine Sys2Proof.Claims Sys2Proof.Proofs.Encoding

/-! ## R100 -/

/-- The bits of the polynomial 0x07. -/
theorem getLsbD_poly (i : Nat) : Config.poly.getLsbD i = decide (i < 3) := by
  by_cases hi : i < 8
  · interval_cases i <;> rfl
  · rw [BitVec.getLsbD_of_ge _ _ (Nat.le_of_not_lt hi)]
    exact (decide_eq_false (by omega)).symm

/-- What a step leaves in each bit: the bit below it, and the feedback in the three bits of the polynomial. -/
theorem getLsbD_crcStep (r : Byte) (v : Bool) {i : Nat} (hi : i < 8) :
    (crcStep r v).getLsbD i =
      ((decide (1 ≤ i) && r.getLsbD (i - 1)) ^^ (decide (i < 3) && (v ^^ r.getLsbD 7))) := by
  have hshift : (r <<< 1).getLsbD i = (decide (1 ≤ i) && r.getLsbD (i - 1)) := by
    rw [BitVec.getLsbD_shiftLeft]
    simp only [hi, decide_true, Bool.true_and, ← decide_not, Nat.not_lt]
  rw [crcStep, BitVec.getLsbD_xor, hshift]
  cases v ^^ r.getLsbD 7
  · simp
  · simp [getLsbD_poly]

/-- The step in numbers: `((r << 1) mod 256) ^ (fb ? 0x07 : 0x00)`. -/
theorem toNat_crcStep (r : Byte) (v : Bool) :
    (crcStep r v).toNat = ((r.toNat <<< 1) % 256) ^^^ (if v ^^ r.getLsbD 7 then 0x07 else 0x00) := by
  rw [crcStep, BitVec.toNat_xor, BitVec.toNat_shiftLeft]
  cases v ^^ r.getLsbD 7 <;> rfl

/-- Settles O1: each bit of the new register is read off `getLsbD_crcStep`. -/
theorem crcStepIsTheBitFormula : Obligations.CrcStepIsTheBitFormula := by
  refine fun r v => ⟨?_, ?_, ?_, ?_, ?_, ?_, ?_, ?_, toNat_crcStep r v⟩
  all_goals
    rw [getLsbD_crcStep r v (by decide)]
    simp

/-! ## R74, for one row of the table -/

/-- How many operand words follow a header is told by its opcode alone (R72). -/
theorem operandWords_congr {h h' : Word} (hop : opField h = opField h') : operandWords h = operandWords h' := by
  simp only [operandWords, hop]

/-- A header with a row's opcode but not its fixed bits is refused, because no other row has that opcode (R74). -/
theorem refusesReserved_of_mem {r : Row} (hm : r ∈ opTable) :
    RefusesReserved (opField r.value) r.mask r.value (operandWords r.value) := by
  intro s h ws rest hlen hop hne hsends
  have hnone : selectRow h = none := selectRow_none_of_reserved hm hop hne
  have hwords : ws.length = operandWords h := hlen.trans (operandWords_congr hop).symm
  exact step_of_selectRow_none hnone hwords hsends

/-! ## R102 to R105 -/

/-- CRC_CLR in every state (R102). -/
theorem exec_crcClr (s : State) :
    exec .crcClr s = .next { s with crc := 0x00, lastErr := 0x00, resp := s.resp ++ [.ok []] } := rfl

/-- CRC_BIT in every state (R103). -/
theorem exec_crcBit (v : Bool) (s : State) :
    exec (.crcBit v) s = .next { s with crc := crcStep s.crc v, lastErr := 0x00, resp := s.resp ++ [.ok []] } := rfl

/-- CRC_INT in every state: the register it starts from is zero, not CRC (R104). -/
theorem exec_crcInt (x : Word) (s : State) :
    exec (.crcInt x) s = .next { s with
      crc := crc8 x.toNat, lastErr := 0x00, resp := s.resp ++ [.ok [(crc8 x.toNat).setWidth 32]] } := rfl

/-- CRC_RD in every state (R105). -/
theorem exec_crcRd (s : State) :
    exec .crcRd s = .next { s with lastErr := 0x00, resp := s.resp ++ [.ok [s.crc.setWidth 32]] } := rfl

/-- Settles O2: CRC_CLR's row fixes every bit of its header. -/
theorem crcClrClearsTheRegister : Obligations.CrcClrClearsTheRegister := by
  refine ⟨exec_crcClr, rfl, ?refused⟩
  case refused => exact refusesReserved_of_mem (r := ⟨.crcClr, 0x00000001, 0xFFFFFFFF⟩) (by decide)

/-- Settles O3: CRC_BIT's row leaves only bit 8 of its header free. -/
theorem crcBitShiftsOneBit : Obligations.CrcBitShiftsOneBit := by
  refine ⟨exec_crcBit, fun _ => rfl, ?refused, ?corners⟩
  case refused => exact refusesReserved_of_mem (r := ⟨.crcBit, 0x00000002, 0xFFFFFEFF⟩) (by decide)
  case corners => decide

/-- Settles O4: the value CRC_INT leaves is `crc8` of its operand, which is by definition its bits fed into zero. -/
theorem crcIntComputesCrc8 : Obligations.CrcIntComputesCrc8 := by
  refine ⟨exec_crcInt, fun _ => rfl, fun _ => rfl, ?refused, ?corners⟩
  case refused => exact refusesReserved_of_mem (r := ⟨.crcInt, 0x00000003, 0xFFFFFFFF⟩) (by decide)
  case corners => decide

/-- R105's example from any state: the first bit leaves 0x07 in CRC and the second 0x0E. -/
theorem execAll_crcRd_example (s : State) :
    execAll [.crcClr, .crcBit true, .crcBit false, .crcRd] s =
      .next { s with crc := 0x0E, lastErr := 0x00, resp := s.resp ++ [.ok [], .ok [], .ok [], .ok [0x0E]] } := by
  have hcrc : crcStep (crcStep 0x00 true) false = 0x0E := by decide
  rw [execAll_cons_of_next (exec_crcClr s), execAll_cons_of_next (exec_crcBit true _),
    execAll_cons_of_next (exec_crcBit false _), execAll_cons_of_next (exec_crcRd _), execAll_nil]
  simp only [hcrc, List.append_assoc]
  rfl

/-- Settles O5: CRC_RD answers the register as it stands, 0x00 at reset and 0x0E in the rule's example. -/
theorem crcRdReadsTheRegister : Obligations.CrcRdReadsTheRegister := by
  refine ⟨exec_crcRd, rfl, ?refused, exec_crcRd State.reset, fun s => ?sequence⟩
  case refused => exact refusesReserved_of_mem (r := ⟨.crcRd, 0x00000004, 0xFFFFFFFF⟩) (by decide)
  case sequence => exact ⟨_, execAll_crcRd_example s, by simp [Response.words]⟩

end Sys2Proof.Proofs.Crc
end

section
/-! SUPPORT. The proofs about the configuration word of 41_cfgword.md: its packing (R120, R121), and the two commands in
every state with the headers they refuse (R123, R124, R74). -/

namespace Sys2Proof.Proofs.CfgWord

open Sys2Proof.Machine Sys2Proof.Claims Sys2Proof.Proofs.Crc

/-! ## R120 and R121 -/

/-- The fields of word3 occupy disjoint bits, so or-ing them together is adding them (R121). -/
theorem word3_eq_add (pin : Byte) (h : Bool) :
    word3 pin h = Config.magic.toNat <<< 9 + (h.toNat <<< 8 + pin.toNat) := by
  have hpin : pin.toNat < 2 ^ 8 := pin.isLt
  have hlow : h.toNat <<< 8 + pin.toNat < 2 ^ 9 := by
    have hh : h.toNat ≤ 1 := Bool.toNat_le h
    rw [Nat.shiftLeft_eq]
    omega
  rw [word3, Nat.or_assoc, ← Nat.shiftLeft_add_eq_or_of_lt hpin, ← Nat.shiftLeft_add_eq_or_of_lt hlow]

/-- The polarity as the number the rules write, `h ? 1 : 0`. -/
theorem toNat_eq_ite (h : Bool) : h.toNat = if h then 1 else 0 := by
  cases h <;> rfl

/-- Settles O11: the formula's summands are the fields of word3, eight bits further up. -/
theorem word3IsTheSourceFormula : Obligations.Word3IsTheSourceFormula := by
  intro pin h
  have hmagic : Config.magic.toNat = 0x494F := rfl
  rw [word3_eq_add, hmagic, ← toNat_eq_ite]
  simp only [Nat.shiftLeft_eq, Nat.shiftRight_eq_div_pow]
  omega

/-! ## R123 -/

/-- CFG_ENC in every state: CRC is left at the CRC byte of the word it answers (R123). -/
theorem exec_cfgEnc (pin : Byte) (h : Bool) (s : State) :
    exec (.cfgEnc pin h) s = .next { s with
      crc := cfgCrc pin h, lastErr := 0x00, resp := s.resp ++ [.ok [fullWord pin h]] } := rfl

/-- word3 as R121 writes it. -/
theorem word3_eq_or (pin : Byte) (h : Bool) :
    word3 pin h = 0x494F <<< 9 ||| (if h then 1 else 0) <<< 8 ||| pin.toNat := by
  rw [← toNat_eq_ite]
  rfl

/-- Settles O13: the number that R123 shifts into a zero register is word3, and CFG_ENC's row leaves only pin and h of
its header free. -/
theorem cfgEncBuildsTheWord : Obligations.CfgEncBuildsTheWord := by
  refine ⟨fun pin h s w3 hw3 => ?packed, fun _ _ => rfl, ?refused⟩
  case packed =>
    rw [hw3, ← word3_eq_or]
    exact exec_cfgEnc pin h s
  case refused => exact refusesReserved_of_mem (r := ⟨.cfgEnc, 0x00000008, 0xFFFE00FF⟩) (by decide)

/-! ## R124 -/

/-- CFG_DEC in every state: it writes no register but LAST_ERR, whatever the word's magic and CRC byte are (R124). -/
theorem exec_cfgDec (w : Word) (s : State) :
    exec (.cfgDec w) s = .next { s with
      lastErr := 0x00, resp := s.resp ++ [.ok [cfgValue (cfgPin w) (cfgPinHigh w)]] } := rfl

/-- The polarity is bit 8 of CFG_DEC's response word (R77). -/
theorem cfgValue_eq (pin : Byte) (h : Bool) :
    cfgValue pin h = pin.setWidth 32 ||| (if h then 0x100 else 0) := by
  cases h <;> rfl

/-- Settles O14: CFG_DEC answers the two extracted fields, and its row fixes every bit of its header. -/
theorem cfgDecExtractsTheFields : Obligations.CfgDecExtractsTheFields := by
  refine ⟨fun w s => ?fields, fun _ => rfl, ?refused, ?corners⟩
  case fields =>
    rw [exec_cfgDec, cfgValue_eq]
    rfl
  case refused => exact refusesReserved_of_mem (r := ⟨.cfgDec, 0x00000009, 0xFFFFFFFF⟩) (by decide)
  case corners => decide

end Sys2Proof.Proofs.CfgWord
end

section
/-! SUPPORT. The proofs about the framer of 42_ihex_framer.md: the checksum and the records with fixed fields (R146,
R147, R149), PLACE case by case (R144), and the four commands in every state (R143, R150 to R152) with the headers they
refuse (R74). -/

namespace Sys2Proof.Proofs.IhexFramer

open Sys2Proof.Machine Sys2Proof.Claims Sys2Proof.Proofs.Encoding Sys2Proof.Proofs.Crc

/-! ## R147 -/

theorem byteSum_eq_sum (data : List Byte) : byteSum data = (data.map BitVec.toNat).sum := by
  induction data with
  | nil => rfl
  | cons b bs ih => rw [byteSum_cons, ih, List.map_cons, List.sum_cons]

theorem toNat_negMod256 (total : Nat) : (negMod256 total).toNat = (0x100 - total % 0x100) % 0x100 := by
  rw [negMod256, BitVec.toNat_ofNat]
  omega

theorem negMod256_eq_zero_iff (total : Nat) : negMod256 total = 0x00 ↔ total % 256 = 0 := by
  have hzero : (0x00 : Byte).toNat = 0 := rfl
  rw [← BitVec.toNat_inj, toNat_negMod256, hzero]
  omega

/-- Settles O16: the checksum is the complement of the total, which is zero only for a multiple of 256. -/
theorem checksumFormula : Obligations.ChecksumFormula := by
  intro count addr rtype data total htotal
  have hcs : checksum count addr rtype data = negMod256 total := by
    rw [htotal, ← byteSum_eq_sum]
    rfl
  rw [hcs]
  exact ⟨toNat_negMod256 total, negMod256_eq_zero_iff total⟩

/-! ## R146 and R149 -/

/-- The checksum of an ELA record: count and type add up to 0x06, and the address is zero. -/
theorem elaRecord_csum (ob : Word) :
    (elaRecord ob).csum = negMod256 (0x06 + (ob.extractLsb' 24 8).toNat + (ob.extractLsb' 16 8).toNat) := by
  have htotal : (2 : Byte).toNat + (addrHigh 0).toNat + (addrLow 0).toNat + (0x04 : Byte).toNat + byteSum (elaData ob)
      = 0x06 + (ob.extractLsb' 24 8).toNat + (ob.extractLsb' 16 8).toNat := (Nat.add_assoc 6 _ _).symm
  exact congrArg negMod256 htotal

/-- Settles O18: only the checksum of ELA takes a computation. -/
theorem elaAndEofRecords : Obligations.ElaAndEofRecords := by
  refine ⟨fun ob _ => ?fields, by decide, rfl⟩
  case fields => exact congrArg (Record.mk 2 0x0000 0x04 (elaData ob)) (elaRecord_csum ob)

/-! ## R144 -/

section Place

variable {f : Framer} {rel : Nat}

theorem place_of_crossing (hcross : rel - f.offb.toNat = Config.segment) (d : Byte) :
    f.place d rel = (f.cross rel).append d := by
  rw [Framer.place, Framer.makeRoom, if_pos hcross]

theorem place_of_full (hcross : rel - f.offb.toNat ≠ Config.segment)
    (hfull : f.rcnt.toNat = f.cols.toNat) (d : Byte) : f.place d rel = (f.wrap rel).append d := by
  rw [Framer.place, Framer.makeRoom, if_neg hcross, if_pos hfull]

theorem place_of_room (hcross : rel - f.offb.toNat ≠ Config.segment)
    (hroom : f.rcnt.toNat ≠ f.cols.toNat) (d : Byte) : f.place d rel = f.append d := by
  rw [Framer.place, Framer.makeRoom, if_neg hcross, if_neg hroom]

end Place

/-- A byte put into an empty record is all of it. -/
theorem append_of_empty {f : Framer} (hdata : f.rdata = []) (hcnt : f.rcnt = 0) (hsum : f.rsum = 0) (d : Byte) :
    f.append d = { f with rdata := [d], rcnt := 1, rsum := d } := by
  have hfirst : (0 : Byte) + d = d := BitVec.zero_add d
  rw [Framer.append, hdata, hcnt, hsum, hfirst]
  rfl

/-- Settles O19: each branch of PLACE appends the byte to the record that the branch leaves, an empty one after a
FLUSH. -/
theorem placeOneStreamByte : Obligations.PlaceOneStreamByte := by
  rintro f d rel r rfl
  split_ifs with hcross hfull
  · rw [place_of_crossing hcross, append_of_empty rfl rfl rfl, Framer.cross, Framer.emit, Framer.flush]
    simp only [Framer.emit, List.append_assoc]
    rfl
  · rw [place_of_full hcross hfull, append_of_empty rfl rfl rfl]
    rfl
  · exact place_of_room hcross hfull d

/-! ## Runs of bytes without a full record -/

@[simp] theorem appendAll_nil (f : Framer) : f.appendAll [] = f := rfl

@[simp] theorem appendAll_cons (f : Framer) (d : Byte) (ds : List Byte) :
    f.appendAll (d :: ds) = (f.append d).appendAll ds := rfl

@[simp] theorem appendAll_cols (f : Framer) (ds : List Byte) : (f.appendAll ds).cols = f.cols := by
  induction ds generalizing f with
  | nil => rfl
  | cons d ds ih => rw [appendAll_cons, ih, Framer.append_cols]

@[simp] theorem appendAll_offb (f : Framer) (ds : List Byte) : (f.appendAll ds).offb = f.offb := by
  induction ds generalizing f with
  | nil => rfl
  | cons d ds ih => rw [appendAll_cons, ih, Framer.append_offb]

@[simp] theorem appendAll_pend (f : Framer) (ds : List Byte) : (f.appendAll ds).pend = f.pend := by
  induction ds generalizing f with
  | nil => rfl
  | cons d ds ih => rw [appendAll_cons, ih, Framer.append_pend]

/-- RCNT counts an appended byte while it is below 63. -/
theorem toNat_append_rcnt {f : Framer} (hlt : f.rcnt.toNat + 1 < 64) (d : Byte) :
    (f.append d).rcnt.toNat = f.rcnt.toNat + 1 := by
  rw [Framer.append_rcnt, BitVec.toNat_add]
  exact Nat.mod_eq_of_lt hlt

theorem toNat_appendAll_rcnt {f : Framer} {ds : List Byte} (hlt : f.rcnt.toNat + ds.length < 64) :
    (f.appendAll ds).rcnt.toNat = f.rcnt.toNat + ds.length := by
  induction ds generalizing f with
  | nil => rfl
  | cons d ds ih =>
    rw [List.length_cons] at hlt ⊢
    have hcnt := toNat_append_rcnt (f := f) (by omega) d
    rw [appendAll_cons, ih (by omega), hcnt]
    omega

theorem cross_append_rcnt (f : Framer) (rel : Nat) (d : Byte) : ((f.cross rel).append d).rcnt.toNat = 1 := rfl

/-- Bytes that stay in the segment and fit the current record are appended to it, each by the last branch of PLACE. -/
theorem placeAll_eq_appendAll {f : Framer} {rel : Nat} {ds : List Byte} (hcols : f.cols.toNat < 64)
    (hseg : rel + ds.length ≤ f.offb.toNat + Config.segment) (hroom : f.rcnt.toNat + ds.length ≤ f.cols.toNat) :
    f.placeAll rel ds = f.appendAll ds := by
  induction ds generalizing f rel with
  | nil => rfl
  | cons d ds ih =>
    rw [List.length_cons] at hseg hroom
    have hcnt := toNat_append_rcnt (f := f) (by omega) d
    have hplace : f.place d rel = f.append d :=
      place_of_room (by simp only [Config.segment] at *; omega) (by omega) d
    rw [Framer.placeAll_cons, hplace, appendAll_cons]
    refine ih hcols ?_ ?_
    · rw [Framer.append_offb]; omega
    · rw [hcnt, Framer.append_cols]; omega

/-- Bytes across a segment's end that fill no record: those before the end are appended, and the byte at the next
segment's first address crosses. -/
theorem placeAll_across {f : Framer} {rel : Nat} {before after : List Byte} {d : Byte} (hcols : f.cols.toNat < 64)
    (hend : rel + before.length = f.offb.toNat + Config.segment) (hlimit : rel + before.length < 2 ^ 32)
    (hbefore : f.rcnt.toNat + before.length ≤ f.cols.toNat) (hafter : 1 + after.length ≤ f.cols.toNat) :
    f.placeAll rel (before ++ d :: after) =
      (((f.appendAll before).cross (rel + before.length)).append d).appendAll after := by
  have hcross : (f.appendAll before).place d (rel + before.length) =
      ((f.appendAll before).cross (rel + before.length)).append d :=
    place_of_crossing (by rw [appendAll_offb, hend, Nat.add_sub_cancel_left]) d
  rw [Framer.placeAll_append, placeAll_eq_appendAll hcols hend.le hbefore, Framer.placeAll_cons, hcross]
  refine placeAll_eq_appendAll ?_ ?_ ?_
  · simpa using hcols
  · rw [Framer.append_offb, Framer.cross_offb, BitVec.toNat_ofNat, Nat.mod_eq_of_lt hlimit]
    simp only [Config.segment]
    have := f.cols.isLt
    omega
  · rw [Framer.append_cols, Framer.cross_cols, appendAll_cols]
    exact hafter

/-! ## R143 -/

section HexStart

variable {columns : Byte} {p : Bool} {base n : Word} {s : State}

theorem exec_hexStart_of_active (hactive : s.framer.hstate = .active) :
    exec (.hexStart columns p base n) s = .next (afterFramerError s .sequence 0x04) := by
  rw [exec, execHexStart, if_pos hactive]
  rfl

theorem exec_hexStart_of_columns (hidle : s.framer.hstate = .idle) (hcols : ¬(columns = 16 ∨ columns = 32)) :
    exec (.hexStart columns p base n) s = .next (afterFramerError s .invalidColumns 0x02) := by
  have hillegal : legalColumns columns = false := by rwa [← Bool.not_eq_true, legalColumns_iff]
  rw [exec, execHexStart, if_neg (by simp [hidle]), if_pos hillegal]
  rfl

theorem exec_hexStart_of_overflow (hidle : s.framer.hstate = .idle) (hcols : columns = 16 ∨ columns = 32)
    (hover : 2 ^ 32 < base.toNat + (if p then 4 else 0) + n.toNat) :
    exec (.hexStart columns p base n) s = .next (afterFramerError s .addressOverflow 0x03) := by
  rw [exec, execHexStart, if_neg (by simp [hidle]), if_neg (by simp [(legalColumns_iff columns).mpr hcols]),
    if_pos ((addressOverflow_iff base p n).mpr hover)]
  rfl

theorem exec_hexStart_of_fits (hidle : s.framer.hstate = .idle) (hcols : columns = 16 ∨ columns = 32)
    (hfits : base.toNat + (if p then 4 else 0) + n.toNat ≤ 2 ^ 32) :
    exec (.hexStart columns p base n) s = .next { s with
      framer := Framer.started columns p base n, lastErr := 0x00, resp := s.resp ++ [.ok []] } := by
  have hno : ¬ addressOverflow base p n = true := by rw [addressOverflow_iff]; omega
  rw [exec, execHexStart, if_neg (by simp [hidle]), if_neg (by simp [(legalColumns_iff columns).mpr hcols]), if_neg hno]
  rfl

end HexStart

/-- The framer of a HEX_START whose prefix is written out byte by byte. -/
theorem started_eq_places (columns : Byte) (p : Bool) (base n : Word) :
    Framer.started columns p base n =
      if p then
        ((((Framer.opened columns p base n).place (n.extractLsb' 24 8) base.toNat).place
          (n.extractLsb' 16 8) (base.toNat + 1)).place (n.extractLsb' 8 8) (base.toNat + 2)).place
          (n.extractLsb' 0 8) (base.toNat + 3)
      else Framer.opened columns p base n := by
  cases p <;> rfl

theorem toNat_columns {columns : Byte} (hcols : columns = 16 ∨ columns = 32) :
    columns.toNat = 16 ∨ columns.toNat = 32 := by
  obtain rfl | rfl := hcols
  · exact .inl rfl
  · exact .inr rfl

@[simp] theorem opened_cols (columns : Byte) (p : Bool) (base n : Word) :
    (Framer.opened columns p base n).cols = columns := rfl

@[simp] theorem opened_offb (columns : Byte) (p : Bool) (base n : Word) :
    (Framer.opened columns p base n).offb = segmentBase base := rfl

@[simp] theorem opened_rcnt (columns : Byte) (p : Bool) (base n : Word) :
    (Framer.opened columns p base n).rcnt.toNat = 0 := rfl

@[simp] theorem opened_pend (columns : Byte) (p : Bool) (base n : Word) :
    (Framer.opened columns p base n).pend = [elaRecord (segmentBase base)] := rfl

theorem length_sizePrefix_eq (n : Word) : (sizePrefix n).length = 4 := rfl

/-- With 4 bytes or more to the segment's end the prefix is the current record (R161). -/
theorem started_of_lead_le {columns : Byte} {base n : Word} (hcols : columns = 16 ∨ columns = 32)
    (hlead : base.toNat % 0x10000 ≤ 0xFFFC) :
    Framer.started columns true base n = (Framer.opened columns true base n).appendAll (sizePrefix n) := by
  have hwidth := toNat_columns hcols
  have hseg := segmentBase_toNat base
  have hlen := length_sizePrefix_eq n
  rw [Framer.started_eq, if_pos rfl]
  refine placeAll_eq_appendAll ?_ ?_ ?_
  · rw [opened_cols]
    omega
  · rw [opened_offb]
    simp only [Config.segment] at *
    omega
  · rw [opened_rcnt, opened_cols]
    omega

/-- With m < 4 bytes to the segment's end, the prefix byte m starts the next segment's first record (R161). -/
theorem started_of_lead_eq {columns : Byte} {base n : Word} {m : Nat} (hcols : columns = 16 ∨ columns = 32)
    (hfits : base.toNat + 4 ≤ 2 ^ 32) (hlead : base.toNat % 0x10000 = 0x10000 - m) (hm : m < (sizePrefix n).length) :
    Framer.started columns true base n =
      ((((Framer.opened columns true base n).appendAll ((sizePrefix n).take m)).cross (base.toNat + m)).append
        (sizePrefix n)[m]).appendAll ((sizePrefix n).drop (m + 1)) := by
  have hwidth := toNat_columns hcols
  have hseg := segmentBase_toNat base
  have hlen := length_sizePrefix_eq n
  have htake : ((sizePrefix n).take m).length = m := List.length_take_of_le hm.le
  have hsplit : (sizePrefix n).take m ++ (sizePrefix n)[m] :: (sizePrefix n).drop (m + 1) = sizePrefix n := by
    rw [← List.drop_eq_getElem_cons hm, List.take_append_drop]
  rw [Framer.started_eq, if_pos rfl]
  conv_lhs => rw [← hsplit]
  rw [placeAll_across, htake]
  · rw [opened_cols]
    omega
  · rw [htake, opened_offb]
    simp only [Config.segment] at *
    omega
  · omega
  · rw [htake, opened_rcnt, opened_cols]
    omega
  · rw [List.length_drop, opened_cols]
    omega

/-- What the prefix leaves pending: it fills no record, and crosses a segment's end exactly from offset 0xFFFD on
(R143, R161). -/
theorem started_prefix {columns : Byte} {base : Word} (n : Word) (hcols : columns = 16 ∨ columns = 32)
    (hfits : base.toNat + 4 ≤ 2 ^ 32) :
    (Framer.started columns true base n).rcnt.toNat ≤ 4 ∧
      (Framer.started columns true base n).pend.length = if 0xFFFD ≤ base.toNat % 0x10000 then 3 else 1 := by
  have hlen := length_sizePrefix_eq n
  by_cases hlead : 0xFFFD ≤ base.toNat % 0x10000
  · obtain ⟨m, hm, hm4⟩ : ∃ m, base.toNat % 0x10000 = 0x10000 - m ∧ m < 4 :=
      ⟨0x10000 - base.toNat % 0x10000, by omega, by omega⟩
    rw [started_of_lead_eq hcols hfits hm hm4, if_pos hlead]
    refine ⟨?_, by simp⟩
    have hdrop : ((sizePrefix n).drop (m + 1)).length ≤ 3 := by rw [List.length_drop]; omega
    rw [toNat_appendAll_rcnt (by rw [cross_append_rcnt]; omega), cross_append_rcnt]
    omega
  · rw [started_of_lead_le hcols (by omega), if_neg hlead]
    refine ⟨?_, by simp⟩
    rw [toNat_appendAll_rcnt (by rw [opened_rcnt, hlen]; decide), opened_rcnt, hlen]

/-- Settles O23: the tests of HEX_START in their order, and the runs of the prefix bytes before and after the segment's
end. -/
theorem hexStartOpensAnEncode : Obligations.HexStartOpensAnEncode := by
  refine ⟨fun _ _ _ _ _ => exec_hexStart_of_active,
    fun _ _ _ _ _ hidle h16 h32 => exec_hexStart_of_columns hidle (not_or.mpr ⟨h16, h32⟩),
    fun _ _ _ _ _ => exec_hexStart_of_overflow, fun columns p base n s ob f hidle hcols hfits hob hf => ?opened,
    fun _ _ _ _ => rfl, ?refused, fun s hidle => ?sample, fun columns base n s hidle hcols hfits => ?sizePrefix⟩
  case opened =>
    subst hob hf
    rw [exec_hexStart_of_fits hidle hcols hfits, started_eq_places]
    rfl
  case refused => exact refusesReserved_of_mem (r := ⟨.hexStart, 0x00000010, 0xFFFE00FF⟩) (by decide)
  case sample => exact ⟨_, exec_hexStart_of_fits hidle (by decide) (by decide), rfl, rfl, rfl⟩
  case sizePrefix =>
    exact ⟨_, exec_hexStart_of_fits hidle hcols hfits, started_prefix n hcols (by omega)⟩

/-! ## R150 -/

section HexByte

variable {d : Byte} {s : State}

theorem exec_hexByte_of_idle (hidle : s.framer.hstate = .idle) :
    exec (.hexByte d) s = .next (afterFramerError s .sequence 0x04) := by
  rw [exec, execHexByte, if_pos hidle]
  rfl

theorem exec_hexByte_of_full (hactive : s.framer.hstate = .active) (hfull : s.framer.k = s.framer.len) :
    exec (.hexByte d) s = .next (afterFramerError s .lengthMismatch 0x05) := by
  rw [exec, execHexByte, if_neg (by simp [hactive]), if_pos hfull]
  rfl

theorem exec_hexByte_of_more (hactive : s.framer.hstate = .active) (hmore : s.framer.k ≠ s.framer.len) :
    exec (.hexByte d) s = .next { s with
      framer := s.framer.accept d, lastErr := 0x00, resp := s.resp ++ [.ok []] } := by
  rw [exec, execHexByte, if_neg (by simp [hactive]), if_neg hmore]
  rfl

end HexByte

/-- The target address as R150 writes it. -/
theorem nextAddress_eq (f : Framer) : f.nextAddress = f.base.toNat + 4 * f.pre.toNat + f.k.toNat := by
  rw [Framer.nextAddress, prefixLength_eq]
  cases f.pre <;> rfl

/-- Below LEN, K does not wrap. -/
theorem toNat_k_add_one {f : Framer} (hlt : f.k.toNat < f.len.toNat) : (f.k + 1).toNat = f.k.toNat + 1 := by
  have hlen := f.len.isLt
  rw [BitVec.toNat_add]
  exact Nat.mod_eq_of_lt (show f.k.toNat + 1 < 2 ^ 32 by omega)

/-- With a byte still to come, its address is inside the address space and K has room for it (R38 (e)). -/
theorem nextAddress_le_of_more {f : Framer} (h : f.OpenLaw) (hmore : f.k ≠ f.len) :
    f.nextAddress ≤ 0xFFFFFFFF ∧ (f.k + 1).toNat = f.k.toNat + 1 := by
  have hle := h.k_le_len
  have hfits := h.fits
  have hne : f.k.toNat ≠ f.len.toNat := fun he => hmore (BitVec.eq_of_toNat_eq he)
  refine ⟨?_, toNat_k_add_one (by omega)⟩
  simp only [Framer.nextAddress, Config.addressLimit] at *
  omega

@[simp] theorem placeAll_len (f : Framer) (rel : Nat) (ds : List Byte) : (f.placeAll rel ds).len = f.len := by
  induction ds generalizing f rel with
  | nil => rfl
  | cons d ds ih => rw [Framer.placeAll_cons, ih, Framer.place_len]

@[simp] theorem placeAll_k (f : Framer) (rel : Nat) (ds : List Byte) : (f.placeAll rel ds).k = f.k := by
  induction ds generalizing f rel with
  | nil => rfl
  | cons d ds ih => rw [Framer.placeAll_cons, ih, Framer.place_k]

@[simp] theorem started_len (columns : Byte) (p : Bool) (base n : Word) :
    (Framer.started columns p base n).len = n := by
  rw [Framer.started_eq, placeAll_len]
  rfl

@[simp] theorem started_k (columns : Byte) (p : Bool) (base n : Word) :
    (Framer.started columns p base n).k = 0 := by
  rw [Framer.started_eq, placeAll_k]
  rfl

/-- The HEX_BYTE commands of a buffer that is no longer than what HEX_START announced and has not come yet. -/
theorem execAll_hexBytes {buf : List Byte} {s : State} (hactive : s.framer.hstate = .active) (herr : s.lastErr = 0x00)
    (hroom : s.framer.k.toNat + buf.length ≤ s.framer.len.toNat) :
    execAll (buf.map .hexByte) s = .next { s with
      framer := buf.foldl Framer.accept s.framer, resp := s.resp ++ List.replicate buf.length (.ok []) } := by
  induction buf generalizing s with
  | nil => simp
  | cons d buf ih =>
    rw [List.length_cons] at hroom
    have hmore : s.framer.k ≠ s.framer.len := fun he => by rw [he] at hroom; omega
    have hk := toNat_k_add_one (f := s.framer) (by omega)
    rw [List.map_cons, execAll_cons_of_next (exec_hexByte_of_more hactive hmore), ih]
    · simp [herr, List.replicate_succ]
    · simpa using hactive
    · rfl
    · rw [Framer.accept_k, Framer.accept_len, Framer.place_len, hk]
      omega

/-- An encode up to some of its bytes: HEX_START and then HEX_BYTE commands, as many as announced or fewer. -/
theorem execAll_opened {columns : Byte} {p : Bool} {base n : Word} {buf : List Byte} {s : State}
    (hidle : s.framer.hstate = .idle) (hcols : columns = 16 ∨ columns = 32)
    (hfits : base.toNat + (if p then 4 else 0) + n.toNat ≤ 2 ^ 32) (hbuf : buf.length ≤ n.toNat) :
    execAll (.hexStart columns p base n :: buf.map .hexByte) s = .next { s with
      framer := buf.foldl Framer.accept (Framer.started columns p base n), lastErr := 0x00
      resp := s.resp ++ List.replicate (buf.length + 1) (.ok []) } := by
  rw [execAll_cons_of_next (exec_hexStart_of_fits hidle hcols hfits), execAll_hexBytes]
  · simp [List.replicate_succ]
  · simp
  · rfl
  · simpa using hbuf

/-- Settles O24: the tests of HEX_BYTE in their order, and R38 (e) for the address. -/
theorem hexBytePlacesOneByte : Obligations.HexBytePlacesOneByte := by
  refine ⟨fun _ _ => exec_hexByte_of_idle, fun _ _ => exec_hexByte_of_full,
    fun d s rel hactive hmore hrel => ?placed, fun _ => rfl, ?refused, fun s hidle => ?sample⟩
  case placed =>
    rw [← nextAddress_eq] at hrel
    subst hrel
    exact ⟨exec_hexByte_of_more hactive hmore, fun hopen => nextAddress_le_of_more hopen hmore⟩
  case refused => exact refusesReserved_of_mem (r := ⟨.hexByte, 0x00000011, 0xFFFF00FF⟩) (by decide)
  case sample =>
    exact ⟨_, execAll_opened (buf := [0x00]) hidle (by decide) (by decide) (by decide), rfl, rfl, rfl⟩

/-! ## R151 -/

theorem exec_hexEnd_of_idle {s : State} (hidle : s.framer.hstate = .idle) :
    exec .hexEnd s = .next (afterFramerError s .sequence 0x04) := by
  rw [exec, execHexEnd, if_pos hidle]
  rfl

theorem exec_hexEnd_of_short {s : State} (hactive : s.framer.hstate = .active)
    (hshort : s.framer.k.toNat < s.framer.len.toNat) :
    exec .hexEnd s = .next (afterFramerError s .lengthMismatch 0x05) := by
  rw [exec, execHexEnd, if_neg (by simp [hactive]), if_pos hshort]
  rfl

/-- The records HEX_END delivers: a current record that holds a byte is flushed, and EOF comes last. -/
theorem closed_pend (f : Framer) :
    f.closed.pend = (if f.rcnt = 0 then f.pend else f.flush.pend) ++ [eofRecord] := by
  by_cases hempty : f.rcnt = 0
  · simp [Framer.closed, hempty]
  · have hpos : 0 < f.rcnt.toNat := Nat.pos_of_ne_zero fun h0 => hempty (BitVec.eq_of_toNat_eq h0)
    rw [Framer.closed, if_pos hpos, if_neg hempty, Framer.emit_pend]

/-- An open encode delivers its first ELA record and EOF at least (R38 (f)). -/
theorem two_le_length_closed_pend {f : Framer} (h : f.OpenLaw) : 2 ≤ f.closed.pend.length := by
  obtain ⟨first, rs, hpend, -⟩ := h.starts_with_ela
  rw [closed_pend, Framer.flush_pend, hpend]
  split_ifs <;> simp

@[simp] theorem foldl_accept_hstate (f : Framer) (buf : List Byte) :
    (buf.foldl Framer.accept f).hstate = f.hstate := by
  induction buf generalizing f with
  | nil => rfl
  | cons d buf ih => rw [List.foldl_cons, ih, Framer.accept_hstate, Framer.place_hstate]

@[simp] theorem foldl_accept_len (f : Framer) (buf : List Byte) : (buf.foldl Framer.accept f).len = f.len := by
  induction buf generalizing f with
  | nil => rfl
  | cons d buf ih => rw [List.foldl_cons, ih, Framer.accept_len, Framer.place_len]

theorem foldl_accept_k (f : Framer) (buf : List Byte) :
    (buf.foldl Framer.accept f).k = f.k + BitVec.ofNat 32 buf.length := by
  induction buf generalizing f with
  | nil => exact (BitVec.add_zero f.k).symm
  | cons d buf ih =>
    rw [List.foldl_cons, ih, Framer.accept_k, List.length_cons, Nat.add_comm, BitVec.ofNat_add, BitVec.add_assoc]
    rfl

/-- A whole encode: HEX_START, as many HEX_BYTE commands as it announced, and HEX_END (R140). -/
theorem execAll_encode {columns : Byte} {p : Bool} {base n : Word} {buf : List Byte} {s : State} {rs : List Record}
    (hidle : s.framer.hstate = .idle) (hcols : columns = 16 ∨ columns = 32)
    (hfits : base.toNat + (if p then 4 else 0) + n.toNat ≤ 2 ^ 32) (hbuf : buf.length = n.toNat)
    (hrs : (buf.foldl Framer.accept (Framer.started columns p base n)).closed.pend = rs) :
    execAll (.hexStart columns p base n :: (buf.map .hexByte ++ [.hexEnd])) s = .next { s with
      framer := Framer.idle, out := s.out ++ rs, lastErr := 0x00
      resp := s.resp ++ List.replicate (buf.length + 1) (.ok []) ++ [.ok [BitVec.ofNat 32 rs.length]] } := by
  have hk : (buf.foldl Framer.accept (Framer.started columns p base n)).k = n := by
    rw [foldl_accept_k, started_k, hbuf, BitVec.ofNat_toNat, BitVec.setWidth_eq]
    exact BitVec.zero_add n
  subst hrs
  rw [← List.cons_append, execAll_append_of_next (execAll_opened hidle hcols hfits hbuf.le),
    execAll_cons_of_next (exec_hexEnd_of_full ?active ?full), execAll_nil]
  case active => simp
  case full => simp [hk]
  rfl

/-- The records of R151's example. -/
theorem records_of_sample :
    ([0x00, 0x01, 0x02].foldl Framer.accept (Framer.started 16 false 0x80000000 3)).closed.pend =
      [{ count := 2, addr := 0x0000, rtype := 0x04, data := [0x80, 0x00], csum := 0x7A },
        { count := 3, addr := 0x0000, rtype := 0x00, data := [0x00, 0x01, 0x02], csum := 0xFA },
        { count := 0, addr := 0x0000, rtype := 0x01, data := [], csum := 0xFF }] := by decide

/-- Settles O25: the tests of HEX_END in their order; in an open encode PEND starts with an ELA record. -/
theorem hexEndDeliversTheRecords : Obligations.HexEndDeliversTheRecords := by
  refine ⟨fun _ => exec_hexEnd_of_idle, fun _ => exec_hexEnd_of_short,
    fun s rs hactive hfull hrs => ?delivered, rfl, ?refused, fun s hidle => ?emptyEncode, fun s hidle => ?sample⟩
  case delivered =>
    rw [← closed_pend] at hrs
    subst hrs
    exact ⟨exec_hexEnd_of_full hactive hfull, two_le_length_closed_pend⟩
  case refused => exact refusesReserved_of_mem (r := ⟨.hexEnd, 0x00000012, 0xFFFFFFFF⟩) (by decide)
  case emptyEncode =>
    exact ⟨_, execAll_encode (buf := []) (rs := [elaRecord 0x80000000, eofRecord]) hidle (by decide) (by decide) rfl
      rfl, by simp [Response.words], rfl⟩
  case sample =>
    exact ⟨_, execAll_encode (buf := [0x00, 0x01, 0x02]) hidle (by decide) (by decide) rfl records_of_sample,
      by simp [Response.words], rfl⟩

/-! ## R152 -/

/-- HEX_ABORT in every state. -/
theorem exec_hexAbort (s : State) :
    exec .hexAbort s = .next { s with framer := Framer.idle, lastErr := 0x00, resp := s.resp ++ [.ok []] } := rfl

/-- Settles O26: an IDLE framer is at its IDLE values already (R37). -/
theorem hexAbortDiscardsTheEncode : Obligations.HexAbortDiscardsTheEncode := by
  refine ⟨exec_hexAbort, fun s hinv hidle => ?noop, rfl, ?refused, fun s hidle => ?sample⟩
  case noop => rw [exec_hexAbort, ← hinv.idle hidle]
  case refused => exact refusesReserved_of_mem (r := ⟨.hexAbort, 0x00000013, 0xFFFFFFFF⟩) (by decide)
  case sample =>
    have hopened := execAll_opened (columns := 16) (p := false) (base := 0) (n := 5) (buf := [1]) hidle (by decide)
      (by decide) (by decide)
    exact ⟨_, execAll_append_of_next (js := [.hexAbort]) hopened, rfl, rfl, rfl⟩

end Sys2Proof.Proofs.IhexFramer
end

section
/-! SUPPORT. The proofs about 43_control.md: STATUS and RESET in every state (R190, R191), what LAST_ERR holds after a
command (R192), and that the CRC unit and the framer do not meet (R193). -/

namespace Sys2Proof.Proofs.Control

open Sys2Proof.Machine Sys2Proof.Claims Sys2Proof.Proofs.StateRegisters Sys2Proof.Proofs.Encoding Sys2Proof.Proofs.Crc
  Sys2Proof.Proofs.CfgWord Sys2Proof.Proofs.IhexFramer

/-! ## The two commands in every state -/

/-- RESET in every state (R191). -/
theorem exec_reset (s : State) :
    exec .reset s = .next { s with
      crc := State.reset.crc, framer := State.reset.framer, lastErr := State.reset.lastErr
      resp := s.resp ++ [.ok []] } := rfl

/-- STATUS in every state, by the words of R36. -/
theorem exec_status (s : State) :
    exec .status s = .next { s with resp := s.resp ++ [.ok [statusS0 s, statusS1 s]] } := rfl

/-! ## What each unit's commands read and write -/

/-- The state after a CRC-unit command that leaves `c` in CRC and answers the value words `vs`. -/
def crcAnswer (s : State) (c : Byte) (vs : List Word) : State :=
  { s with crc := c, lastErr := 0x00, resp := s.resp ++ [.ok vs] }

/-- The state after a framer command that leaves the framer at `f`, delivers the records `rs` and answers `r`. -/
def framerAnswer (s : State) (f : Framer) (rs : List Record) (r : Response) : State :=
  { s with framer := f, out := s.out ++ rs, lastErr := r.code, resp := s.resp ++ [r] }

/-- What the command does is settled where CRC is `c`, whatever the rest of the state is, and it writes CRC alone. -/
def SettledByCrc (i : Instr) (c : Byte) : Prop :=
  ∃ c' vs, ∀ s : State, s.crc = c → exec i s = .next (crcAnswer s c' vs)

theorem settledByCrc_of_crcUnit {i : Instr} (hi : IsCrcUnit i = true) (c : Byte) : SettledByCrc i c := by
  cases i with
  | crcClr => exact ⟨_, _, fun s _ => exec_crcClr s⟩
  | crcBit v => exact ⟨crcStep c v, _, fun s hc => hc ▸ exec_crcBit v s⟩
  | crcInt x => exact ⟨_, _, fun s _ => exec_crcInt x s⟩
  | crcRd => exact ⟨c, [c.setWidth 32], fun s hc => hc ▸ exec_crcRd s⟩
  | cfgEnc pin h => exact ⟨_, _, fun s _ => exec_cfgEnc pin h s⟩
  | cfgDec w => exact ⟨c, _, fun s hc => hc ▸ exec_cfgDec w s⟩
  | hexStart | hexByte | hexEnd | hexAbort | status | reset | recData | recEof | recEla => cases hi

/-- What the command does is settled where the framer is `f`, whatever the rest of the state is, and it writes the
framer and OUT alone. -/
def SettledByFramer (i : Instr) (f : Framer) : Prop :=
  ∃ f' rs r, ∀ s : State, s.framer = f → exec i s = .next (framerAnswer s f' rs r)

/-- A command that delivers no record appends nothing to OUT. -/
theorem settledByFramer_of_keeps_out {i : Instr} {f : Framer} (f' : Framer) (r : Response)
    (h : ∀ s : State, s.framer = f →
      exec i s = .next { s with framer := f', lastErr := r.code, resp := s.resp ++ [r] }) : SettledByFramer i f :=
  ⟨f', [], r, fun s hf => by rw [h s hf, framerAnswer, List.append_nil]⟩

theorem settledByFramer_hexStart (columns : Byte) (p : Bool) (base n : Word) (f : Framer) :
    SettledByFramer (.hexStart columns p base n) f := by
  by_cases hactive : f.hstate = .active
  · exact settledByFramer_of_keeps_out .idle (.err .sequence) fun s hf => exec_hexStart_of_active (hf ▸ hactive)
  have hidle := HState.eq_idle_of_ne hactive
  by_cases hcols : columns = 16 ∨ columns = 32
  · by_cases hfits : base.toNat + (if p then 4 else 0) + n.toNat ≤ 2 ^ 32
    · exact settledByFramer_of_keeps_out (.started columns p base n) (.ok []) fun s hf =>
        exec_hexStart_of_fits (hf ▸ hidle) hcols hfits
    · exact settledByFramer_of_keeps_out .idle (.err .addressOverflow) fun s hf =>
        exec_hexStart_of_overflow (hf ▸ hidle) hcols (Nat.not_le.mp hfits)
  · exact settledByFramer_of_keeps_out .idle (.err .invalidColumns) fun s hf =>
      exec_hexStart_of_columns (hf ▸ hidle) hcols

theorem settledByFramer_hexByte (d : Byte) (f : Framer) : SettledByFramer (.hexByte d) f := by
  by_cases hidle : f.hstate = .idle
  · exact settledByFramer_of_keeps_out .idle (.err .sequence) fun s hf => exec_hexByte_of_idle (hf ▸ hidle)
  have hactive := HState.eq_active_of_ne hidle
  by_cases hfull : f.k = f.len
  · exact settledByFramer_of_keeps_out .idle (.err .lengthMismatch) fun s hf =>
      exec_hexByte_of_full (hf ▸ hactive) (hf ▸ hfull)
  · exact settledByFramer_of_keeps_out (f.accept d) (.ok []) fun s hf => by
      subst hf
      exact exec_hexByte_of_more hactive hfull

theorem settledByFramer_hexEnd (f : Framer) : SettledByFramer .hexEnd f := by
  by_cases hidle : f.hstate = .idle
  · exact settledByFramer_of_keeps_out .idle (.err .sequence) fun s hf => exec_hexEnd_of_idle (hf ▸ hidle)
  have hactive := HState.eq_active_of_ne hidle
  by_cases hshort : f.k.toNat < f.len.toNat
  · exact settledByFramer_of_keeps_out .idle (.err .lengthMismatch) fun s hf =>
      exec_hexEnd_of_short (hf ▸ hactive) (hf ▸ hshort)
  · refine ⟨.idle, f.closed.pend, .ok [BitVec.ofNat 32 f.closed.pend.length], fun s hf => ?_⟩
    subst hf
    exact exec_hexEnd_of_full hactive (Nat.not_lt.mp hshort)

theorem settledByFramer_of_framerUnit {i : Instr} (hi : IsFramerUnit i = true) (f : Framer) :
    SettledByFramer i f := by
  cases i with
  | hexStart columns p base n => exact settledByFramer_hexStart columns p base n f
  | hexByte d => exact settledByFramer_hexByte d f
  | hexEnd => exact settledByFramer_hexEnd f
  | hexAbort => exact settledByFramer_of_keeps_out .idle (.ok []) fun s _ => exec_hexAbort s
  | crcClr | crcBit | crcInt | crcRd | cfgEnc | cfgDec | status | reset | recData | recEof | recEla => cases hi

/-! ## R193 -/

/-- Settles O33: neither unit's commands read or write the registers of the other. -/
theorem unitsAreIndependent : Obligations.UnitsAreIndependent := by
  refine ⟨fun i s f hi => ?crcUnit, fun i s c hi => ?framerUnit, fun i j s hi hj => ?eitherOrder⟩
  case crcUnit =>
    obtain ⟨c', vs, hexec⟩ := settledByCrc_of_crcUnit hi s.crc
    exact ⟨_, hexec s rfl, rfl, rfl, hexec { s with framer := f } rfl⟩
  case framerUnit =>
    obtain ⟨f', rs, r, hexec⟩ := settledByFramer_of_framerUnit hi s.framer
    exact ⟨_, hexec s rfl, rfl, hexec { s with crc := c } rfl⟩
  case eitherOrder =>
    obtain ⟨c', vs, hcrc⟩ := settledByCrc_of_crcUnit hi s.crc
    obtain ⟨f', rs, r, hframer⟩ := settledByFramer_of_framerUnit hj s.framer
    have hij : execAll [i, j] s = .next (framerAnswer (crcAnswer s c' vs) f' rs r) := by
      rw [execAll_cons_of_next (hcrc s rfl)]
      exact execAll_cons_of_next (hframer _ rfl)
    have hji : execAll [j, i] s = .next (crcAnswer (framerAnswer s f' rs r) c' vs) := by
      rw [execAll_cons_of_next (hframer s rfl)]
      exact execAll_cons_of_next (hcrc _ rfl)
    exact ⟨_, _, hij, hji, rfl, rfl, rfl⟩

/-! ## R192 -/

/-- The commands but STATUS: those of the two units, and RESET. -/
theorem crcUnit_or_framerUnit_or_reset {i : Instr} (hw : i.wellFormed = true) (hne : i ≠ .status) :
    IsCrcUnit i = true ∨ IsFramerUnit i = true ∨ i = .reset := by
  cases i with
  | crcClr | crcBit | crcInt | crcRd | cfgEnc | cfgDec => exact .inl rfl
  | hexStart | hexByte | hexEnd | hexAbort => exact .inr (.inl rfl)
  | reset => exact .inr (.inr rfl)
  | status => exact absurd rfl hne
  | recData | recEof | recEla => cases hw

/-- A command but STATUS answers, with its own code in LAST_ERR, the same whatever LAST_ERR was. -/
theorem exec_of_ne_status {i : Instr} (hw : i.wellFormed = true) (hne : i ≠ .status) (s : State) :
    ∃ t r, (∀ v, exec i { s with lastErr := v } = .next t) ∧ t.resp = s.resp ++ [r] ∧ t.lastErr = r.code := by
  obtain hcrc | hframer | rfl := crcUnit_or_framerUnit_or_reset hw hne
  · obtain ⟨c', vs, hexec⟩ := settledByCrc_of_crcUnit hcrc s.crc
    exact ⟨crcAnswer s c' vs, .ok vs, fun v => hexec { s with lastErr := v } rfl, rfl, rfl⟩
  · obtain ⟨f', rs, r, hexec⟩ := settledByFramer_of_framerUnit hframer s.framer
    exact ⟨framerAnswer s f' rs r, r, fun v => hexec { s with lastErr := v } rfl, rfl, rfl⟩
  · exact ⟨s.resetRegisters.finishOk [], .ok [], fun v => exec_reset { s with lastErr := v }, rfl, rfl⟩

/-- Every command answers; all but STATUS leave their own code in LAST_ERR. -/
theorem exec_lastErr {i : Instr} (hw : i.wellFormed = true) (s : State) :
    ∃ t r, exec i s = .next t ∧ t.resp = s.resp ++ [r] ∧ t.lastErr = if i = .status then s.lastErr else r.code := by
  by_cases hi : i = .status
  · subst hi
    exact ⟨_, _, exec_status s, rfl, rfl⟩
  · obtain ⟨t, r, hexec, hresp, herr⟩ := exec_of_ne_status hw hi s
    exact ⟨t, r, hexec s.lastErr, hresp, by rw [if_neg hi, herr]⟩

/-- No error has the code of OK (R200). -/
theorem ok_iff_code_eq_zero (r : Response) : (∃ vs, r = .ok vs) ↔ r.code = 0x00 := by
  cases r with
  | ok vs => exact ⟨fun _ => rfl, fun _ => ⟨vs, rfl⟩⟩
  | err e =>
    have hcode : e.code ≠ 0x00 := by cases e <;> decide
    exact ⟨fun ⟨_, h⟩ => (nomatch h), fun h => absurd h hcode⟩

/-- Settles O32: every command ends by writing its result to LAST_ERR and none but STATUS reads it. -/
theorem lastErrHoldsTheResult : Obligations.LastErrHoldsTheResult := by
  refine ⟨fun i s hw => ?result, fun s why used hd => ?illegal, fun i s v hw hne => ?unread, fun s v => ?status⟩
  case result =>
    obtain ⟨t, r, hexec, hresp, herr⟩ := exec_lastErr hw s
    exact ⟨t, r, hexec, hresp, herr, ok_iff_code_eq_zero r⟩
  case illegal => exact ⟨_, step_of_illegal hd, State.raise_resp _ _, State.raise_lastErr _ _⟩
  case unread =>
    obtain ⟨t, _, hexec, -, -⟩ := exec_of_ne_status hw hne s
    exact (hexec v).trans (hexec s.lastErr).symm
  case status => exact ⟨_, exec_status _, rfl, rfl, rfl⟩

/-! ## R190 -/

/-- A one-bit field of a packed word at bit k. -/
theorem bitWord_shiftLeft (b : Bool) (k : Nat) : bitWord b <<< k = if b then 1 <<< k else 0 := by
  cases b
  · exact BitVec.zero_shiftLeft k
  · rfl

/-- S0 as R190 writes it. -/
theorem statusS0_eq (s : State) : statusS0 s =
    s.framer.rcnt.setWidth 32 <<< 24 ||| s.crc.setWidth 32 <<< 16 ||| s.lastErr.setWidth 32 <<< 8
      ||| (if s.framer.cols = 32 then 0x00000004 else 0) ||| (if s.framer.pre then 0x00000002 else 0)
      ||| (if s.framer.hstate = .active then 0x00000001 else 0) := by
  simp only [statusS0, bitWord_shiftLeft, hstateBit_eq, beq_iff_eq]
  simp [bitWord]

/-- STATUS after a failing command shows that command's code. -/
theorem statusS0_of_err {i : Instr} {s t : State} {e : ErrCode} (hw : i.wellFormed = true) (h : exec i s = .next t)
    (hresp : t.resp = s.resp ++ [.err e]) : (statusS0 t).extractLsb' 8 8 = e.code := by
  have hne : i ≠ .status := by
    rintro rfl
    rw [exec_status] at h
    cases h
    simp at hresp
  obtain ⟨t', r, hexec, hresp', herr⟩ := exec_of_ne_status hw hne s
  cases (hexec s.lastErr).symm.trans h
  have hr : r = .err e := by simpa [hresp'] using hresp
  rw [statusS0_lastErr, herr, hr]
  rfl

/-- Settles O27: STATUS's words are those of R36, and it only responds. -/
theorem statusReadsTheWords : Obligations.StatusReadsTheWords := by
  refine ⟨fun s => ?words, exec_status State.reset, rfl, ?refused, fun _ _ _ _ => statusS0_of_err, ?sample⟩
  case words => rw [← statusS0_eq]; exact exec_status s
  case refused => exact refusesReserved_of_mem (r := ⟨.status, 0x00000020, 0xFFFFFFFF⟩) (by decide)
  case sample =>
    have hstart := exec_hexStart_of_fits (s := State.reset) (columns := 16) (p := true) (base := 0x80000000) (n := 2)
      rfl (by decide) (by decide)
    exact ⟨_, (execAll_cons_of_next hstart).trans (execAll_cons_of_next (exec_status _)), by decide⟩

/-! ## R191 -/

/-- Settles O29: RESET sets every register, so that CRC_RD after it reads CRC's reset value. -/
theorem resetCommandResetsTheRegisters : Obligations.ResetCommandResetsTheRegisters := by
  refine ⟨exec_reset, rfl, ?refused, fun s => ?sample⟩
  case refused => exact refusesReserved_of_mem (r := ⟨.reset, 0x0000003F, 0xFFFFFFFF⟩) (by decide)
  case sample =>
    exact ⟨_, (execAll_cons_of_next (exec_crcBit true s)).trans <| (execAll_cons_of_next (exec_reset _)).trans <|
      execAll_cons_of_next (exec_crcRd _), by simp [Response.words, State.reset]⟩

end Sys2Proof.Proofs.Control
end

section
/-! SUPPORT. The proofs about 60_exceptions.md: which commands are out of order (R202), what an error changes (R204),
and which error is reported where several apply (R205). One function gives the error of a command, in the order of R205;
every command that has one ends in the state R204 gives, and every other command answers OK. -/

namespace Sys2Proof.Proofs.Exceptions

open Sys2Proof.Machine Sys2Proof.Claims Sys2Proof.Proofs.Encoding Sys2Proof.Proofs.Crc Sys2Proof.Proofs.IhexFramer

/-! ## The response of a command -/

/-- The first error of R205's order that applies to a command, if one does; only the framer's commands have one. -/
def firstError : Instr → Framer → Option ErrCode
  | .hexStart columns p base n, f =>
    if f.hstate = .active then some .sequence
    else if ¬(columns = 16 ∨ columns = 32) then some .invalidColumns
    else if addressOverflow base p n = true then some .addressOverflow
    else none
  | .hexByte _, f =>
    if f.hstate = .idle then some .sequence
    else if f.k = f.len then some .lengthMismatch
    else none
  | .hexEnd, f =>
    if f.hstate = .idle then some .sequence
    else if f.k.toNat < f.len.toNat then some .lengthMismatch
    else none
  | .crcClr, _ | .crcBit _, _ | .crcInt _, _ | .crcRd, _ | .cfgEnc _ _, _ | .cfgDec _, _ | .hexAbort, _ | .status, _
  | .reset, _ | .recData, _ | .recEof, _ | .recEla, _ => none

/-- The value words of a command that succeeds (R77). -/
def okValues : Instr → State → List Word
  | .crcInt x, _ => [crcWord (crc8 x.toNat)]
  | .crcRd, s => [crcWord s.crc]
  | .cfgEnc pin h, _ => [fullWord pin h]
  | .cfgDec w, _ => [cfgValue (cfgPin w) (cfgPinHigh w)]
  | .hexEnd, s => [BitVec.ofNat 32 s.framer.closed.pend.length]
  | .status, s => [statusS0 s, statusS1 s]
  | .crcClr, _ | .crcBit _, _ | .hexStart _ _ _ _, _ | .hexByte _, _ | .hexAbort, _ | .reset, _ | .recData, _
  | .recEof, _ | .recEla, _ => []

/-- The one response of a command. -/
def response (i : Instr) (s : State) : Response :=
  match firstError i s.framer with
  | some e => .err e
  | none => .ok (okValues i s)

/-- R204, for every command that fails: the framer at its IDLE values, LAST_ERR the code, all else unchanged. -/
theorem exec_of_firstError {i : Instr} {s : State} {e : ErrCode} (he : firstError i s.framer = some e) :
    exec i s = .next (afterFramerError s e e.code) := by
  cases i with
  | hexStart columns p base n =>
    simp only [firstError] at he
    split_ifs at he with hactive hcols hover <;> cases he
    · exact exec_hexStart_of_active hactive
    · exact exec_hexStart_of_overflow (HState.eq_idle_of_ne hactive) hcols ((addressOverflow_iff base p n).mp hover)
    · exact exec_hexStart_of_columns (HState.eq_idle_of_ne hactive) hcols
  | hexByte d =>
    simp only [firstError] at he
    split_ifs at he with hidle hfull <;> cases he
    · exact exec_hexByte_of_idle hidle
    · exact exec_hexByte_of_full (HState.eq_active_of_ne hidle) hfull
  | hexEnd =>
    simp only [firstError] at he
    split_ifs at he with hidle hshort <;> cases he
    · exact exec_hexEnd_of_idle hidle
    · exact exec_hexEnd_of_short (HState.eq_active_of_ne hidle) hshort
  | crcClr | crcBit | crcInt | crcRd | cfgEnc | cfgDec | hexAbort | status | reset | recData | recEof | recEla =>
    cases he

/-- A command to which no error applies answers OK with its values. -/
theorem exec_of_firstError_none {i : Instr} {s : State} (hw : i.wellFormed = true)
    (hnone : firstError i s.framer = none) : ∃ t, exec i s = .next t ∧ t.resp = s.resp ++ [.ok (okValues i s)] := by
  cases i with
  | hexStart columns p base n =>
    simp only [firstError] at hnone
    split_ifs at hnone with hactive hcols hover
    rw [addressOverflow_iff, Nat.not_lt] at hover
    exact ⟨_, exec_hexStart_of_fits (HState.eq_idle_of_ne hactive) hcols hover, rfl⟩
  | hexByte d =>
    simp only [firstError] at hnone
    split_ifs at hnone with hidle hfull
    exact ⟨_, exec_hexByte_of_more (HState.eq_active_of_ne hidle) hfull, rfl⟩
  | hexEnd =>
    simp only [firstError] at hnone
    split_ifs at hnone with hidle hshort
    exact ⟨_, exec_hexEnd_of_full (HState.eq_active_of_ne hidle) (Nat.not_lt.mp hshort), rfl⟩
  | crcClr | crcBit | crcInt | crcRd | cfgEnc | cfgDec | hexAbort | status | reset => exact ⟨_, rfl, rfl⟩
  | recData | recEof | recEla => cases hw

/-- Every command completes with one response, the one `response` gives. -/
theorem exec_responds {i : Instr} (hw : i.wellFormed = true) (s : State) :
    ∃ t, exec i s = .next t ∧ t.resp = s.resp ++ [response i s] := by
  unfold response
  cases he : firstError i s.framer with
  | some e => exact ⟨_, exec_of_firstError he, rfl⟩
  | none => exact exec_of_firstError_none hw he

theorem response_eq_err_iff {i : Instr} {s : State} {e : ErrCode} :
    response i s = .err e ↔ firstError i s.framer = some e := by
  unfold response
  cases firstError i s.framer <;> simp

/-- A command that answered an error is one to which that error applies. -/
theorem firstError_of_resp {i : Instr} {s t : State} {e : ErrCode} (hw : i.wellFormed = true)
    (h : exec i s = .next t) (hresp : t.resp = s.resp ++ [.err e]) : firstError i s.framer = some e := by
  obtain ⟨t', hexec, hresp'⟩ := exec_responds hw s
  cases hexec.symm.trans h
  exact response_eq_err_iff.mp (by simpa [hresp'] using hresp)

/-! ## R202 -/

/-- SEQUENCE stands first in the order of R205, so it is reported wherever a command is out of order. -/
theorem firstError_eq_sequence_iff (i : Instr) (f : Framer) :
    firstError i f = some .sequence ↔
      ((∃ columns p base n, i = .hexStart columns p base n) ∧ f.hstate = .active) ∨
      ((∃ d, i = .hexByte d) ∧ f.hstate = .idle) ∨ (i = .hexEnd ∧ f.hstate = .idle) := by
  cases i with
  | hexStart columns p base n =>
    simp only [firstError]
    split_ifs with hactive <;> simp [hactive]
  | hexByte d =>
    simp only [firstError]
    split_ifs with hidle <;> simp [hidle]
  | hexEnd =>
    simp only [firstError]
    split_ifs with hidle <;> simp [hidle]
  | crcClr | crcBit | crcInt | crcRd | cfgEnc | cfgDec | hexAbort | status | reset | recData | recEof | recEla =>
    simp [firstError]

/-- Settles O36: the response is SEQUENCE where the first error is. -/
theorem sequenceErrors : Obligations.SequenceErrors := by
  intro i s hw
  obtain ⟨t, hexec, hresp⟩ := exec_responds hw s
  exact ⟨t, _, hexec, hresp, response_eq_err_iff.trans (firstError_eq_sequence_iff i s.framer)⟩

/-! ## R204 -/

/-- ILLEGAL_CMD is raised by headers, before there is a command (R201). -/
theorem firstError_ne_illegalCmd (i : Instr) (f : Framer) : firstError i f ≠ some .illegalCmd := by
  cases i with
  | hexStart | hexByte | hexEnd => simp only [firstError]; split_ifs <;> simp
  | crcClr | crcBit | crcInt | crcRd | cfgEnc | cfgDec | hexAbort | status | reset | recData | recEof | recEla =>
    exact nofun

/-- Settles O37: an illegal header executes nothing, every failing command leaves the same state, and the IDLE values
are those an IDLE framer holds already (R37). -/
theorem errorEffects : Obligations.ErrorEffects := by
  refine ⟨fun s why used hd => ?illegal, fun i s t e hw h hresp => ?failed,
    fun columns p base n s t e hinv hidle h hresp => ?failedStart⟩
  case illegal => exact step_of_illegal hd
  case failed =>
    have he : firstError i s.framer = some e := firstError_of_resp hw h hresp
    refine ⟨fun hill => firstError_ne_illegalCmd i s.framer (hill ▸ he), ?_⟩
    cases h.symm.trans (exec_of_firstError he)
    rfl
  case failedStart =>
    cases h.symm.trans (exec_of_firstError (firstError_of_resp rfl h hresp))
    exact (hinv.idle hidle).symm

/-! ## R205 -/

theorem response_hexStart (columns : Byte) (p : Bool) (base n : Word) (s : State) :
    response (.hexStart columns p base n) s =
      if s.framer.hstate = .active then .err .sequence
      else if ¬(columns = 16 ∨ columns = 32) then .err .invalidColumns
      else if 2 ^ 32 < base.toNat + (if p then 4 else 0) + n.toNat then .err .addressOverflow
      else .ok [] := by
  simp only [response, firstError, addressOverflow_iff]
  split_ifs <;> rfl

theorem response_hexByte (d : Byte) (s : State) :
    response (.hexByte d) s =
      if s.framer.hstate = .idle then .err .sequence
      else if s.framer.k = s.framer.len then .err .lengthMismatch
      else .ok [] := by
  simp only [response, firstError]
  split_ifs <;> rfl

theorem response_hexEnd (s : State) :
    response .hexEnd s =
      if s.framer.hstate = .idle then .err .sequence
      else if s.framer.k.toNat < s.framer.len.toNat then .err .lengthMismatch
      else .ok [BitVec.ofNat 32 s.framer.closed.pend.length] := by
  simp only [response, firstError]
  split_ifs <;> rfl

/-- The fixed bits of HEX_BYTE's row take in the whole of B, where they are 0 (R73). -/
theorem fieldB_eq_zero_of_hexByte_bits {h : Word} (hfixed : h &&& 0xFFFF00FF = 0x00000011) : fieldB h = 0 := by
  have hkept : fieldB (h &&& 0xFFFF00FF) = fieldB h &&& BitVec.allOnes 8 := BitVec.extractLsb'_and
  rw [← BitVec.and_allOnes (x := fieldB h), ← hkept, hfixed]
  rfl

/-- Settles O38: each framer command's response is the first of its errors in R205's order; a header that is refused
is never executed. -/
theorem errorPriority : Obligations.ErrorPriority := by
  refine ⟨fun columns p base n s => ?hexStart, fun d s => ?hexByte, fun s => ?hexEnd,
    fun s h rest hop hB hs => ?refused⟩
  case hexStart =>
    obtain ⟨t, hexec, hresp⟩ := exec_responds (i := .hexStart columns p base n) rfl s
    exact ⟨t, _, hexec, hresp, response_hexStart columns p base n s⟩
  case hexByte =>
    obtain ⟨t, hexec, hresp⟩ := exec_responds (i := .hexByte d) rfl s
    exact ⟨t, _, hexec, hresp, response_hexByte d s⟩
  case hexEnd =>
    obtain ⟨t, hexec, hresp⟩ := exec_responds (i := .hexEnd) rfl s
    rw [response_hexEnd] at hresp
    refine ⟨t, _, hexec, hresp, fun hidle => if_pos hidle, fun hactive hshort => ?_, fun hactive hfull => ?_⟩
    · rw [hactive, if_neg (by decide), if_pos hshort]
    · exact ⟨_, by rw [hactive, if_neg (by decide), if_neg (Nat.not_lt.mpr hfull)]⟩
  case refused =>
    exact refusesReserved_of_mem (r := ⟨.hexByte, 0x00000011, 0xFFFF00FF⟩) (by decide) s h [] rest rfl hop
      (fun hfixed => hB (fieldB_eq_zero_of_hexByte_bits hfixed)) hs

end Sys2Proof.Proofs.Exceptions
end

section
/-! SUPPORT. The proofs about 70_reset_and_hazards.md: the registers at reset (R230), which hold the framer's IDLE values
(R37), so that the status words of R36 show CRC and LAST_ERR only. -/

namespace Sys2Proof.Proofs.ResetAndHazards

open Sys2Proof.Machine Sys2Proof.Proofs.StateRegisters

/-! ## R230 -/

theorem reset_framer : State.reset.framer = Framer.idle := rfl

theorem reset_meets_idleLaw : State.reset.framer.IdleLaw := fun _ => reset_framer

theorem status_reset : statusS0 State.reset = 0x00000000 ∧ statusS1 State.reset = 0x00000000 := by
  obtain ⟨hs0, hs1⟩ := status_of_framer_idle reset_framer
  exact ⟨hs0.trans (by decide), hs1⟩

/-- Settles O30: each register's value is a field of the reset state; R37 and the status words follow from the framer
being at its IDLE values. -/
theorem resetValues : Obligations.ResetValues :=
  ⟨rfl, rfl, rfl, rfl, rfl, rfl, rfl, rfl, rfl, rfl, rfl, rfl, rfl, rfl, reset_meets_idleLaw, status_reset⟩

end Sys2Proof.Proofs.ResetAndHazards
end

section
/-! SUPPORT. The proofs that the encoder and the decoder of 30_encoding.md undo each other (R70 to R74, R83), that a
command's length is told by its opcode (R72), and that the assembler's lines give those words (R83, R85). -/

namespace Sys2Proof.Proofs.Codec

open Sys2Proof.Machine Sys2Proof.Claims Sys2Proof.Proofs.StateRegisters Sys2Proof.Proofs.Encoding Sys2Proof.Proofs.Crc

/-! ## Headers and their fields -/

/-- The header with this opcode, A and lowest bit of B, and zeros elsewhere: all that R71 and R83 write. -/
def header (op a : Byte) (b : Bool) : Word := op.setWidth 32 ||| a.setWidth 32 <<< 8 ||| bitWord b <<< 16

theorem getLsbD_header (op a : Byte) (b : Bool) (i : Nat) :
    (header op a b).getLsbD i =
      if 17 ≤ i then false else if i = 16 then b else if 8 ≤ i then a.getLsbD (i - 8) else op.getLsbD i := by
  have hop : 8 ≤ i → op.getLsbD i = false := BitVec.getLsbD_of_ge _ _
  have ha : 8 ≤ i - 8 → a.getLsbD (i - 8) = false := BitVec.getLsbD_of_ge _ _
  simp only [header, BitVec.getLsbD_or, BitVec.getLsbD_shiftLeft, BitVec.getLsbD_setWidth, getLsbD_bitWord]
  split_ifs with h17 h16 h8
  · simp [hop (by omega), ha (by omega), show i - 16 ≠ 0 by omega]
  · simp [h16]
  · simp [hop (by omega), show i < 32 by omega, show ¬ i < 8 by omega, show i - 8 < 32 by omega,
      show i < 16 by omega]
  · simp [show i < 32 by omega, show i < 8 by omega, show i < 16 by omega]

@[simp] theorem fieldA_header (op a : Byte) (b : Bool) : fieldA (header op a b) = a :=
  extractLsb'_eq_of_getLsbD fun i hi => by
    rw [getLsbD_header, if_neg (by omega), if_neg (by omega), if_pos (by omega), Nat.add_sub_cancel_left]

/-- The lowest bit of B is bit 16 of the header (R70). -/
theorem fieldB_getLsbD_zero (h : Word) : (fieldB h).getLsbD 0 = h.getLsbD 16 := by
  simp [fieldB]

@[simp] theorem fieldB_header (op a : Byte) (b : Bool) : (fieldB (header op a b)).getLsbD 0 = b := by
  rw [fieldB_getLsbD_zero, getLsbD_header, if_neg (by decide), if_pos rfl]

/-- A word with an opcode's fixed bits, whatever A and the lowest bit of B are, is the header of its own fields. -/
theorem eq_header_of_fixed {h : Word} {op : Byte} (hfixed : h &&& 0xFFFE00FF = op.setWidth 32) :
    h = header op (fieldA h) ((fieldB h).getLsbD 0) := by
  refine BitVec.eq_of_getLsbD_eq fun i hi => ?_
  have hbit : (h.getLsbD i && decide (i < 8 ∨ 17 ≤ i)) = op.getLsbD i := by
    have hmask : (0xFFFE00FF : Word).getLsbD i = decide (i < 8 ∨ 17 ≤ i) := by interval_cases i <;> rfl
    rw [← hmask, ← BitVec.getLsbD_and, hfixed, BitVec.getLsbD_setWidth, decide_eq_true hi, Bool.true_and]
  rw [getLsbD_header, fieldB_getLsbD_zero]
  split_ifs with h17 h16 h8
  · rw [BitVec.getLsbD_of_ge op i (by omega)] at hbit
    simpa [h17] using hbit
  · rw [h16]
  · simp [fieldA, show i - 8 < 8 by omega, show 8 + (i - 8) = i by omega]
  · simpa [show i < 8 by omega] using hbit

/-- In every row the opcode is fixed, and is all of the fixed value (R73). -/
theorem row_fixed_bits {r : Row} (hm : r ∈ opTable) :
    r.value = (opField r.value).setWidth 32 ∧ r.value &&& 0xFFFE00FF = r.value ∧
      r.mask &&& 0xFFFE00FF = 0xFFFE00FF ∧ r.mask &&& 0xFF = 0xFF := by
  have hall : ∀ r ∈ opTable, r.value = (opField r.value).setWidth 32 ∧ r.value &&& 0xFFFE00FF = r.value ∧
      r.mask &&& 0xFFFE00FF = 0xFFFE00FF ∧ r.mask &&& 0xFF = 0xFF := by decide
  exact hall r hm

/-- A header that selects a row is its opcode, its A and the lowest bit of its B. -/
theorem eq_header_of_selects {r : Row} {h : Word} (hm : r ∈ opTable) (hs : r.selects h = true) :
    h = header (opField r.value) (fieldA h) ((fieldB h).getLsbD 0) := by
  obtain ⟨hvalue, hkept, hmask, -⟩ := row_fixed_bits hm
  refine eq_header_of_fixed ?_
  rw [← hvalue, ← hmask, ← BitVec.and_assoc, row_selects_iff.mp hs, hkept]

/-- Where a row leaves A free, a header of its opcode selects it, whatever its A is; and whatever the lowest bit of
its B is, if the row leaves that free too. -/
theorem header_selects {r : Row} (hm : r ∈ opTable) {op a : Byte} {b : Bool} (hvalue : r.value = op.setWidth 32)
    (hA : ∀ i < 8, r.mask.getLsbD (8 + i) = false) (hB : b = true → r.mask.getLsbD 16 = false) :
    r.selects (header op a b) = true := by
  obtain ⟨-, -, -, hlow⟩ := row_fixed_bits hm
  refine row_selects_iff.mpr (BitVec.eq_of_getLsbD_eq fun i hi => ?_)
  rw [BitVec.getLsbD_and, getLsbD_header, hvalue, BitVec.getLsbD_setWidth, decide_eq_true hi, Bool.true_and]
  split_ifs with h17 h16 h8
  · rw [BitVec.getLsbD_of_ge op i (by omega), Bool.false_and]
  · subst h16
    rw [BitVec.getLsbD_of_ge op 16 (by omega)]
    cases b with
    | false => rfl
    | true => rw [hB rfl, Bool.and_false]
  · have hfree := hA (i - 8) (by omega)
    rw [show 8 + (i - 8) = i by omega] at hfree
    rw [hfree, Bool.and_false, BitVec.getLsbD_of_ge op i h8]
  · have hfix : (r.mask &&& 0xFF).getLsbD i = true := by
      rw [hlow]
      have : i < 8 := by omega
      interval_cases i <;> rfl
    rw [BitVec.getLsbD_and, Bool.and_eq_true] at hfix
    rw [hfix.1, Bool.and_true]

/-! ## Decoding an encoded command -/

/-- A header that selects a row decodes, with its operand words, to the row's command, whatever follows. -/
theorem decode_of_selects {r : Row} {h : Word} {ops : List Word} (hm : r ∈ opTable) (hs : r.selects h = true)
    (hl : ops.length = operandWords r.value) (rest : List Word) :
    decode (h :: ops ++ rest) =
      .instr (assembleOperands r.op h ((ops ++ rest).getD 0 0) ((ops ++ rest).getD 1 0)) (h :: ops).length := by
  have hl' : operandWords h = ops.length := (operandWords_congr (opField_of_selects hm hs)).trans hl.symm
  rw [List.cons_append, decode_cons_of_le (by rw [hl', List.length_append]; omega), decodeCommand_of_selects hm hs, hl',
    List.length_cons, Nat.add_comm]

theorem encode_cfgEnc (pin : Byte) (h : Bool) : encode (.cfgEnc pin h) = [header 0x08 pin h] := rfl

theorem encode_hexStart (columns : Byte) (p : Bool) (base n : Word) :
    encode (.hexStart columns p base n) = [header 0x10 columns p, base, n] := rfl

theorem encode_hexByte (d : Byte) : encode (.hexByte d) = [header 0x11 d false] := by
  have hzero : bitWord false <<< 16 = 0 := rfl
  rw [header, hzero]
  exact congrArg (fun w => [w]) BitVec.or_zero.symm

/-- Settles O43: a command's header selects its row, because the operands lie in the bits the row leaves free, and the
fields of the header are the operands. -/
theorem decodeOfEncode : Obligations.DecodeOfEncode := by
  intro i rest hw
  cases i with
  | crcClr =>
    exact decode_of_selects (r := ⟨.crcClr, 0x00000001, 0xFFFFFFFF⟩) (ops := []) (by decide) (by decide) rfl rest
  | crcBit v =>
    cases v
    · exact decode_of_selects (r := ⟨.crcBit, 0x00000002, 0xFFFFFEFF⟩) (ops := []) (by decide) (by decide) rfl rest
    · exact decode_of_selects (r := ⟨.crcBit, 0x00000002, 0xFFFFFEFF⟩) (ops := []) (by decide) (by decide) rfl rest
  | crcInt x =>
    exact decode_of_selects (r := ⟨.crcInt, 0x00000003, 0xFFFFFFFF⟩) (ops := [x]) (by decide) (by decide) rfl rest
  | crcRd =>
    exact decode_of_selects (r := ⟨.crcRd, 0x00000004, 0xFFFFFFFF⟩) (ops := []) (by decide) (by decide) rfl rest
  | cfgEnc pin h =>
    have hs := header_selects (r := ⟨.cfgEnc, 0x00000008, 0xFFFE00FF⟩) (op := 0x08) (a := pin) (b := h)
      (by decide) rfl (by decide) fun _ => rfl
    rw [encode_cfgEnc]
    exact (decode_of_selects (ops := []) (by decide) hs rfl rest).trans (by
      rw [assembleOperands, fieldA_header, fieldB_header])
  | cfgDec w =>
    exact decode_of_selects (r := ⟨.cfgDec, 0x00000009, 0xFFFFFFFF⟩) (ops := [w]) (by decide) (by decide) rfl rest
  | hexStart columns p base n =>
    have hs := header_selects (r := ⟨.hexStart, 0x00000010, 0xFFFE00FF⟩) (op := 0x10) (a := columns) (b := p)
      (by decide) rfl (by decide) fun _ => rfl
    rw [encode_hexStart]
    exact (decode_of_selects (ops := [base, n]) (by decide) hs rfl rest).trans (by
      rw [assembleOperands, fieldA_header, fieldB_header]; rfl)
  | hexByte d =>
    have hs := header_selects (r := ⟨.hexByte, 0x00000011, 0xFFFF00FF⟩) (op := 0x11) (a := d) (b := false)
      (by decide) rfl (by decide) nofun
    rw [encode_hexByte]
    exact (decode_of_selects (ops := []) (by decide) hs rfl rest).trans (by rw [assembleOperands, fieldA_header])
  | hexEnd =>
    exact decode_of_selects (r := ⟨.hexEnd, 0x00000012, 0xFFFFFFFF⟩) (ops := []) (by decide) (by decide) rfl rest
  | hexAbort =>
    exact decode_of_selects (r := ⟨.hexAbort, 0x00000013, 0xFFFFFFFF⟩) (ops := []) (by decide) (by decide) rfl rest
  | status =>
    exact decode_of_selects (r := ⟨.status, 0x00000020, 0xFFFFFFFF⟩) (ops := []) (by decide) (by decide) rfl rest
  | reset =>
    exact decode_of_selects (r := ⟨.reset, 0x0000003F, 0xFFFFFFFF⟩) (ops := []) (by decide) (by decide) rfl rest
  | recData | recEof | recEla => cases hw

/-! ## Encoding a decoded command -/

theorem eq_of_all_fixed {h value : Word} (hfixed : h &&& 0xFFFFFFFF = value) : h = value :=
  BitVec.and_allOnes.symm.trans hfixed

/-- CRC_BIT's row leaves bit 8 alone free. -/
theorem eq_crcBit_word {h : Word} (hfixed : h &&& 0xFFFFFEFF = 0x00000002) :
    h = (0x00000002 : Word) ||| bitWord ((fieldA h).getLsbD 0) <<< 8 := by
  refine BitVec.eq_of_getLsbD_eq fun i hi => ?_
  have hbit : (h.getLsbD i && decide (i ≠ 8)) = (0x00000002 : Word).getLsbD i := by
    have hmask : (0xFFFFFEFF : Word).getLsbD i = decide (i ≠ 8) := by interval_cases i <;> rfl
    rw [← hmask, ← BitVec.getLsbD_and, hfixed]
  have hA : (fieldA h).getLsbD 0 = h.getLsbD 8 := by simp [fieldA]
  rw [hA, BitVec.getLsbD_or, BitVec.getLsbD_shiftLeft, getLsbD_bitWord, ← hbit]
  by_cases h8 : i = 8
  · simp [h8]
  · simp [h8]
    omega

/-- HEX_BYTE's row fixes all of B at 0. -/
theorem eq_hexByte_word {h : Word} (hs : (⟨.hexByte, 0x00000011, 0xFFFF00FF⟩ : Row).selects h = true) :
    h = header 0x11 (fieldA h) false := by
  have hB : (fieldB h).getLsbD 0 = false := by
    have hbit := congrArg (fun w : Word => w.getLsbD 16) (row_selects_iff.mp hs)
    rw [fieldB_getLsbD_zero]
    simpa using hbit
  rw [← hB]
  exact eq_header_of_selects (r := ⟨.hexByte, 0x00000011, 0xFFFF00FF⟩) (by decide) hs

/-- A row's command, read from a header that selects it, has that header and its operand words for its encoding. -/
theorem encode_assembleOperands {r : Row} {h : Word} (hm : r ∈ opTable) (hs : r.selects h = true) (w1 w2 : Word) :
    encode (assembleOperands r.op h w1 w2) = h :: [w1, w2].take (operandWords h) := by
  have hfields := eq_header_of_selects hm hs
  have hfixed := row_selects_iff.mp hs
  have hall : r.mask = 0xFFFFFFFF → h = r.value := fun hmask => eq_of_all_fixed (hmask ▸ hfixed)
  rw [operandWords_congr (opField_of_selects hm hs)]
  obtain ⟨op, value, mask⟩ := r
  cases op with
  | crcBit =>
    obtain ⟨rfl, rfl⟩ : value = 0x00000002 ∧ mask = 0xFFFFFEFF := by simpa [opTable] using hm
    exact congrArg (fun w => [w]) (eq_crcBit_word hfixed).symm
  | cfgEnc =>
    obtain ⟨rfl, rfl⟩ : value = 0x00000008 ∧ mask = 0xFFFE00FF := by simpa [opTable] using hm
    exact congrArg (fun w => [w]) hfields.symm
  | hexStart =>
    obtain ⟨rfl, rfl⟩ : value = 0x00000010 ∧ mask = 0xFFFE00FF := by simpa [opTable] using hm
    exact congrArg (fun w => [w, w1, w2]) hfields.symm
  | hexByte =>
    obtain ⟨rfl, rfl⟩ : value = 0x00000011 ∧ mask = 0xFFFF00FF := by simpa [opTable] using hm
    exact (encode_hexByte _).trans (congrArg (fun w => [w]) (eq_hexByte_word hs).symm)
  | crcClr | crcInt | crcRd | cfgDec | hexEnd | hexAbort | status | reset =>
    simp only [opTable, List.mem_cons, Row.mk.injEq, reduceCtorEq, false_and, true_and, or_false, false_or,
      List.not_mem_nil] at hm
    obtain ⟨rfl, rfl⟩ := hm
    rw [hall rfl]
    rfl

/-- Words that decode to a command begin with a header that selects a row, and have the operand words it calls for. -/
theorem exists_row_of_decode {ws : List Word} {i : Instr} {used : Nat} (hd : decode ws = .instr i used) :
    ∃ h ops r, ws = h :: ops ∧ operandWords h ≤ ops.length ∧ r ∈ opTable ∧ r.selects h = true ∧
      i = assembleOperands r.op h (ops.getD 0 0) (ops.getD 1 0) ∧ used = 1 + operandWords h := by
  cases ws with
  | nil => cases hd
  | cons h ops =>
    have hl : operandWords h ≤ ops.length := by
      by_contra hc
      simp [decode, Nat.not_le.mp hc] at hd
    rw [decode_cons_of_le hl] at hd
    cases hr : selectRow h with
    | none =>
      obtain ⟨why, hill⟩ := decodeCommand_of_none (w1 := ops.getD 0 0) (w2 := ops.getD 1 0) hr
      rw [hill] at hd
      cases hd
    | some r =>
      obtain ⟨hm, hs⟩ := selectRow_eq_some hr
      rw [decodeCommand_of_selects hm hs] at hd
      obtain ⟨rfl, rfl⟩ := Decoding.instr.inj hd
      exact ⟨h, ops, r, rfl, hl, hm, hs, rfl, rfl⟩

theorem operandWords_le_two (h : Word) : operandWords h ≤ 2 := by
  unfold operandWords
  split_ifs <;> decide

/-- The words the decoder reads as operands are the first ones after the header. -/
theorem take_operands {n : Nat} {ops : List Word} (hn : n ≤ 2) (hl : n ≤ ops.length) :
    [ops.getD 0 0, ops.getD 1 0].take n = ops.take n := by
  match n, ops with
  | 0, _ => rfl
  | 1, _ :: _ => rfl
  | 2, _ :: _ :: _ => rfl

/-- Settles O44: the row that the first word selects gives that word back, and the operand words with it. -/
theorem encodeOfDecode : Obligations.EncodeOfDecode := by
  intro ws i used hd
  obtain ⟨h, ops, r, rfl, hl, hm, hs, rfl, rfl⟩ := exists_row_of_decode hd
  rw [encode_assembleOperands hm hs, take_operands (operandWords_le_two h) hl]
  refine ⟨decode_wellFormed hd, ?_, ops.drop (operandWords h), ?_⟩
  · rw [List.length_cons, List.length_take_of_le hl, Nat.add_comm]
  · rw [List.cons_append, List.take_append_drop]

/-! ## The length of a command (R72) -/

/-- With the operand words its opcode calls for a header is a command or illegal. -/
theorem decode_ne_incomplete {h : Word} {ws : List Word} (hl : operandWords h ≤ ws.length) :
    decode (h :: ws) ≠ .incomplete := by
  rw [decode_cons_of_le hl]
  unfold decodeCommand
  split
  · exact nofun
  · split <;> exact nofun

/-- Where nothing that has arrived makes a command and no reset input follows, the step is a wait. -/
theorem step_of_no_reset {s : State} {ws : List Word} (hd : decode ws = .incomplete)
    (hs : s.input = ws.map Input.word) : step s = .next s := by
  have harrived : arrivedWords s.input = ws := by
    rw [hs]
    simpa using arrivedWords_sent ws []
  have hdrop : s.input.drop ws.length = [] := by
    rw [hs]
    exact List.drop_of_length_le (by simp)
  simp [step, fetch, fetchIncomplete, harrived, hd, hdrop]

/-- Settles O41: the decoder answers `incomplete` only where operand words are missing. -/
theorem commandLengthFromTheOpcode : Obligations.CommandLengthFromTheOpcode := by
  refine ⟨fun _ => rfl, fun _ _ => decode_ne_incomplete, fun s h ws hlt hs => ?missing, fun s hs => ?nothing⟩
  case missing => exact step_of_no_reset (ws := h :: ws) (by simp [decode, hlt]) (by simpa [Sends] using hs)
  case nothing => exact step_of_no_reset (ws := []) rfl hs

/-! ## Steps on decoded words -/

/-- Settles O46: `fetch` hands the decoded command on to `exec`. -/
theorem stepRunsTheDecodedCommand : Obligations.StepRunsTheDecodedCommand := fun _ _ _ hd => step_of_instr hd

/-- Settles O47: each sequence is of concrete words. -/
theorem writtenWordsDecode : Obligations.WrittenWordsDecode := by
  unfold Obligations.WrittenWordsDecode
  decide

/-! ## The assembler (R83, R85) -/

theorem assembleWords_of_fits {c : AsmCmd} (hc : c.wellFormed = true) :
    assembleWords c = some ((expand c).flatMap encode) := by
  simp [assembleWords, assemble, hc]

theorem assembleWords_of_not_fits {c : AsmCmd} (hc : ¬ c.wellFormed = true) : assembleWords c = none := by
  simp [assembleWords, assemble, hc]

/-- A line is assembled to its words where its operands fit, and rejected elsewhere. -/
theorem assembleWords_eq_ite {c : AsmCmd} {fits : Prop} [Decidable fits] {ws : List Word}
    (hfits : c.wellFormed = true ↔ fits) (hws : fits → (expand c).flatMap encode = ws) :
    assembleWords c = if fits then some ws else none := by
  split_ifs with h
  · rw [assembleWords_of_fits (hfits.mpr h), hws h]
  · exact assembleWords_of_not_fits (mt hfits.mp h)

/-- The header of a line whose operands fit: the bits of the operands as numbers. -/
theorem ofNat_header {a b : Nat} (op : Nat) (ha : a < 256) (hb : b < 2) :
    BitVec.ofNat 32 (op ||| a <<< 8 ||| b <<< 16) =
      BitVec.ofNat 32 op ||| (BitVec.ofNat 8 a).setWidth 32 <<< 8 ||| bitWord (bitOperand b) <<< 16 := by
  have hshift : ∀ x k : Nat, BitVec.ofNat 32 (x <<< k) = BitVec.ofNat 32 x <<< k := fun x k =>
    BitVec.eq_of_toNat_eq (by simp [Nat.shiftLeft_eq])
  have hbyte : (BitVec.ofNat 8 a).setWidth 32 = BitVec.ofNat 32 a := BitVec.eq_of_toNat_eq (by simp; omega)
  have hbit : bitWord (bitOperand b) = BitVec.ofNat 32 b := by interval_cases b <;> rfl
  rw [BitVec.ofNat_or, BitVec.ofNat_or, hshift, hshift, hbyte, hbit]

/-- CRC_FEED's words, one for each bit, the most significant first (R85). -/
theorem encode_crcFeedCommands (x w : Nat) : (crcFeedCommands x w).flatMap encode =
    (List.range w).reverse.map fun i => if x.testBit i then 0x00000102 else 0x00000002 := by
  have hbit : ∀ v : Bool, encode (.crcBit v) = [if v then 0x00000102 else 0x00000002] := by decide
  induction w with
  | zero => rfl
  | succ w ih =>
    rw [crcFeedCommands_succ, List.flatMap_cons, ih, hbit, List.range_succ, List.reverse_append, List.map_append]
    rfl

/-- Settles O45: for each kind of line, when its operands fit and what its words then are. -/
theorem assemblerChecksItsOperands : Obligations.AssemblerChecksItsOperands := by
  refine ⟨fun v => ?crcBit, fun x => ?crcInt, fun pin h => ?cfgEnc, fun w => ?cfgDec,
    fun columns p base n => ?hexStart, fun d => ?hexByte, fun x w => ?crcFeed⟩
  case crcBit =>
    refine assembleWords_eq_ite (by simp [AsmCmd.wellFormed]) fun hv => ?_
    interval_cases v <;> rfl
  case crcInt => exact assembleWords_eq_ite (by simp [AsmCmd.wellFormed]) fun _ => rfl
  case cfgEnc =>
    exact assembleWords_eq_ite (by simp [AsmCmd.wellFormed]) fun ⟨hpin, hh⟩ => by rw [ofNat_header _ hpin hh]; rfl
  case cfgDec => exact assembleWords_eq_ite (by simp [AsmCmd.wellFormed]) fun _ => rfl
  case hexStart =>
    refine assembleWords_eq_ite (by simp [AsmCmd.wellFormed, and_assoc]) fun ⟨hcolumns, hp, _, _⟩ => ?_
    rw [ofNat_header _ hcolumns hp]
    rfl
  case hexByte =>
    refine assembleWords_eq_ite (by simp [AsmCmd.wellFormed]) fun hd => ?_
    have hword := ofNat_header 0x11 hd (b := 0) (by decide)
    rw [Nat.zero_shiftLeft, Nat.or_zero] at hword
    rw [hword]
    simp [expand, encode, bitOperand, bitWord]
  case crcFeed => exact assembleWords_eq_ite (by simp [AsmCmd.wellFormed]) fun _ => encode_crcFeedCommands x w

end Sys2Proof.Proofs.Codec
end

section
/-! SUPPORT. The proofs of what every step keeps and of what only some steps do: the invariant of an open encode (R37,
R38), the soundness of the records (R156, R160), what writes CRC and OUT, what opens and closes an encode (R22, R23,
R41), the one response of a command (R194), and the reset input (R231). -/

namespace Sys2Proof.Proofs.Steps

open Sys2Proof.Machine Sys2Proof.Claims Sys2Proof.Proofs.StateRegisters Sys2Proof.Proofs.Encoding Sys2Proof.Proofs.Crc
  Sys2Proof.Proofs.IhexFramer Sys2Proof.Proofs.Control Sys2Proof.Proofs.Exceptions

/-! ## Placing the bytes of an open encode -/

@[simp] theorem placeAll_base (f : Framer) (rel : Nat) (ds : List Byte) : (f.placeAll rel ds).base = f.base := by
  induction ds generalizing f rel with
  | nil => rfl
  | cons d ds ih => rw [Framer.placeAll_cons, ih, Framer.place_base]

@[simp] theorem placeAll_pre (f : Framer) (rel : Nat) (ds : List Byte) : (f.placeAll rel ds).pre = f.pre := by
  induction ds generalizing f rel with
  | nil => rfl
  | cons d ds ih => rw [Framer.placeAll_cons, ih, Framer.place_pre]

@[simp] theorem started_base (columns : Byte) (p : Bool) (base n : Word) :
    (Framer.started columns p base n).base = base := by
  rw [Framer.started_eq, placeAll_base]
  rfl

@[simp] theorem started_pre (columns : Byte) (p : Bool) (base n : Word) :
    (Framer.started columns p base n).pre = p := by
  rw [Framer.started_eq, placeAll_pre]
  rfl

/-- The bytes of an accepted HEX_START fit the address space (R143). -/
theorem fits_of_not_overflow {base n : Word} {p : Bool} (hfits : addressOverflow base p n = false) :
    base.toNat + prefixLength p + n.toNat ≤ Config.addressLimit := by
  simpa [addressOverflow] using hfits

theorem nextAddress_started (columns : Byte) (p : Bool) (base n : Word) :
    (Framer.started columns p base n).nextAddress = base.toNat + prefixLength p := by
  rw [Framer.nextAddress, started_base, started_pre, started_k]
  rfl

/-- The byte after the next one goes to the address after the next one, while K does not wrap. -/
theorem nextAddress_accept {f : Framer} (hk : (f.k + 1).toNat = f.k.toNat + 1) (d : Byte) :
    (f.accept d).nextAddress = f.nextAddress + 1 := by
  rw [Framer.nextAddress, Framer.accept_base, Framer.accept_pre, Framer.accept_k, Framer.place_base, Framer.place_pre,
    hk]
  rfl

/-! ## R38 -/

/-- An accepted HEX_START leaves an open encode that meets R38: the size prefix, where there is one, leaves a byte in
the current record. -/
theorem started_openLaw {columns : Byte} {p : Bool} {base n : Word} (hcols : legalColumns columns = true)
    (hfits : addressOverflow base p n = false) : (Framer.started columns p base n).OpenLaw := by
  have hlimit := fits_of_not_overflow hfits
  obtain ⟨hplacing, hpos⟩ := (Framer.opened_placing p base n hcols).placeAll (if p then sizePrefix n else []) (by
    rw [length_sizePrefix]
    simp only [Config.addressLimit] at hlimit
    omega)
  rw [length_sizePrefix, ← nextAddress_started columns p base n, ← Framer.started_eq] at hplacing
  rw [← Framer.started_eq] at hpos
  refine hplacing.openLaw ?_ ?_ fun hempty => ?_
  · rw [started_k]
    exact Nat.zero_le _
  · rw [started_base, started_pre, started_len]
    exact hlimit
  · cases p with
    | false => exact ⟨started_pre .., started_k ..⟩
    | true =>
      have := hpos (List.cons_ne_nil _ _)
      rw [hempty] at this
      cases this

/-- An accepted HEX_BYTE keeps R38, and leaves a byte in the current record. -/
theorem accept_openLaw {f : Framer} (h : f.OpenLaw) (hmore : f.k ≠ f.len) (d : Byte) : (f.accept d).OpenLaw := by
  obtain ⟨haddr, hk⟩ := nextAddress_le_of_more h hmore
  obtain ⟨hplaced, hpos⟩ := h.placing.place (by omega) d
  have hplacing : (f.accept d).Placing (f.accept d).nextAddress := by
    rw [nextAddress_accept hk]
    exact ⟨hplaced.cols_legal, hplaced.offb_aligned, hplaced.position, hplaced.within_segment, hplaced.rcnt_le_cols,
      hplaced.rdata_length, hplaced.running_sum, hplaced.starts_with_ela, hplaced.pend_checksums⟩
  have hlt : f.k.toNat < f.len.toNat :=
    Nat.lt_of_le_of_ne h.k_le_len fun he => hmore (BitVec.eq_of_toNat_eq he)
  refine hplacing.openLaw ?_ ?_ fun hempty => ?_
  · rw [Framer.accept_k, Framer.accept_len, Framer.place_len, hk]
    exact hlt
  · rw [Framer.accept_base, Framer.accept_pre, Framer.accept_len, Framer.place_base, Framer.place_pre,
      Framer.place_len]
    exact h.fits
  · rw [Framer.accept_rcnt] at hempty
    rw [hempty] at hpos
    cases hpos

theorem openLaw_of_idle {f : Framer} (hf : f = Framer.idle) (hactive : f.hstate = .active) : f.OpenLaw := by
  rw [hf] at hactive
  cases hactive

/-- Settles O49: R37 is kept by every effect a step can have, and R38 by the two that leave the framer ACTIVE. -/
theorem everyStepKeepsTheInvariant : Obligations.EveryStepKeepsTheInvariant := by
  intro s t hinv h
  refine ⟨step_keeps_idleLaw hinv.idle h, ?_⟩
  exact step_keeps (P := fun f _ => f.hstate = .active → f.OpenLaw) h hinv.active
    (toIdle := openLaw_of_idle rfl)
    (toOpen := fun _ _ _ _ _ hcols hfits _ => started_openLaw hcols hfits)
    (toNext := fun d hactive hmore _ => accept_openLaw (hinv.active hactive) hmore d)
    (toOut := fun _ _ => openLaw_of_idle rfl)

/-! ## R156 and R160 -/

/-- One more record with a property the others have. -/
theorem forall_mem_concat {P : Record → Prop} {rs : List Record} {r : Record} (hs : ∀ x ∈ rs, P x) (hr : P r) :
    ∀ x ∈ rs ++ [r], P x :=
  List.forall_mem_append.mpr ⟨hs, List.forall_mem_singleton.mpr hr⟩

/-- PLACE emits sound records: the current one where it is full or at its segment's end, so not empty, and an ELA. -/
theorem place_sound {f : Framer} {rel : Nat} (h : f.Placing rel) (d : Byte) (hs : ∀ r ∈ f.pend, r.Sound) :
    ∀ r ∈ (f.place d rel).pend, r.Sound := by
  obtain ⟨hcross, he⟩ | ⟨-, hfull, he⟩ | ⟨-, -, he⟩ := f.place_cases d rel
  · have hcurrent := h.current_sound (h.crossing hcross).1
    rw [he]
    exact forall_mem_concat (forall_mem_concat hs hcurrent) (elaRecord_sound _)
  · have hcurrent := h.current_sound (h.full hfull)
    rw [he]
    exact forall_mem_concat hs hcurrent
  · rw [he]
    exact hs

theorem placeAll_sound {f : Framer} {rel : Nat} (h : f.Placing rel) (ds : List Byte)
    (hrel : rel + ds.length ≤ 2 ^ 32) (hs : ∀ r ∈ f.pend, r.Sound) : ∀ r ∈ (f.placeAll rel ds).pend, r.Sound := by
  induction ds generalizing f rel with
  | nil => exact hs
  | cons d ds ih =>
    rw [List.length_cons] at hrel
    exact ih (h.place (by omega) d).1 (by omega) (place_sound h d hs)

theorem started_sound {columns : Byte} {p : Bool} {base n : Word} (hcols : legalColumns columns = true)
    (hfits : addressOverflow base p n = false) : ∀ r ∈ (Framer.started columns p base n).pend, r.Sound := by
  have hlimit := fits_of_not_overflow hfits
  rw [Framer.started_eq]
  refine placeAll_sound (Framer.opened_placing p base n hcols) _ ?_ ?_
  · rw [length_sizePrefix]
    simp only [Config.addressLimit] at hlimit
    omega
  · rw [opened_pend]
    exact List.forall_mem_singleton.mpr (elaRecord_sound _)

/-- HEX_END adds the current record, if it holds a byte, and EOF. -/
theorem closed_sound {f : Framer} {rel : Nat} (h : f.Placing rel) (hs : ∀ r ∈ f.pend, r.Sound) :
    ∀ r ∈ f.closed.pend, r.Sound := by
  unfold Framer.closed
  split_ifs with hpos
  · exact forall_mem_concat (forall_mem_concat hs (h.current_sound hpos)) eofRecord_sound
  · exact forall_mem_concat hs eofRecord_sound

/-- Settles O50: R38 makes the current record sound wherever it is emitted. -/
theorem everyStepKeepsTheRecordsSound : Obligations.EveryStepKeepsTheRecordsSound := by
  intro s t hinv ⟨hpend, hout⟩ h
  exact step_keeps (P := fun f out => (∀ r ∈ f.pend, r.Sound) ∧ ∀ r ∈ out, r.Sound) h ⟨hpend, hout⟩
    (toIdle := ⟨nofun, hout⟩)
    (toOpen := fun _ _ _ _ _ hcols hfits => ⟨started_sound hcols hfits, hout⟩)
    (toNext := fun d hactive _ => ⟨place_sound (hinv.active hactive).placing d hpend, hout⟩)
    (toOut := fun hactive _ => ⟨nofun,
      List.forall_mem_append.mpr ⟨hout, closed_sound (hinv.active hactive).placing hpend⟩⟩)

/-- Settles O51: nothing is pending or delivered at reset. -/
theorem resetMeetsTheInvariants : Obligations.ResetMeetsTheInvariants :=
  ⟨⟨fun _ => rfl, openLaw_of_idle rfl⟩, nofun, nofun⟩

/-! ## What writes OUT and CRC, and what opens and closes an encode -/

/-- Settles O52: of the effects of a command only the successful HEX_END writes OUT. -/
theorem outGrowsOnlyAtHexEnd : Obligations.OutGrowsOnlyAtHexEnd := by
  intro s t h
  obtain ⟨i, used, hd, -, he⟩ | ⟨_, used, -, -, he⟩ | ⟨rest, -, -, he⟩ | ⟨-, -, he⟩ := step_cases s
  · cases exec_framerEffect (decode_wellFormed hd) (he.symm.trans h) with
    | untouched _ hout => exact .inl hout
    | failed e _ _ => exact .inl (State.raise_out _ e)
    | cleared _ _ hout => exact .inl hout
    | opened => exact .inl rfl
    | placed => exact .inl rfl
    | delivered hactive _ => exact .inr ⟨used, hd, hactive, rfl, rfl⟩
  · cases he.symm.trans h
    exact .inl rfl
  · cases he.symm.trans h
    exact .inl rfl
  · cases he.symm.trans h
    exact .inl rfl

/-- A command that R22 does not list leaves CRC: those of the CRC unit that only read it, and all of the framer's. -/
theorem exec_keeps_crc {i : Instr} {s t : State} (hi : WritesCrc i = false) (h : exec i s = .next t) :
    t.crc = s.crc := by
  by_cases hframer : IsFramerUnit i = true
  · obtain ⟨f', rs, r, hexec⟩ := settledByFramer_of_framerUnit hframer s.framer
    cases (hexec s rfl).symm.trans h
    rfl
  · cases i with
    | crcRd | cfgDec | status | recData | recEof | recEla => cases h; rfl
    | hexStart | hexByte | hexEnd | hexAbort => exact absurd rfl hframer
    | crcClr | crcBit | crcInt | cfgEnc | reset => cases hi

/-- Settles O53: a step on a command is that command's `exec`, and an illegal header or a wait leaves CRC. -/
theorem onlyListedCommandsWriteCrc : Obligations.OnlyListedCommandsWriteCrc := by
  refine ⟨fun i s t => exec_keeps_crc, fun s t h => ?_⟩
  obtain ⟨i, used, -, hf, he⟩ | ⟨_, used, -, -, he⟩ | ⟨rest, -, hf, -⟩ | ⟨-, -, he⟩ := step_cases s
  · by_cases hi : WritesCrc i = true
    · exact .inr (.inr ⟨i, used, hf, hi⟩)
    · exact .inl (exec_keeps_crc (s := s.consume used) (Bool.not_eq_true _ ▸ hi) (he.symm.trans h))
  · cases he.symm.trans h
    exact .inl (State.raise_crc _ _)
  · exact .inr (.inl ⟨rest, hf⟩)
  · cases he.symm.trans h
    exact .inl rfl

/-- A step that makes an IDLE framer ACTIVE is a HEX_START that succeeds. -/
theorem hexStart_of_opens {s t : State} (h : step s = .next t) (hidle : s.framer.hstate = .idle)
    (hactive : t.framer.hstate = .active) :
    ∃ columns p base n used, fetch s.input = .command (.hexStart columns p base n) used ∧
      t.resp = s.resp ++ [.ok []] := by
  have hne : s.framer.hstate ≠ .active := by rw [hidle]; decide
  obtain ⟨i, used, hd, hf, he⟩ | ⟨_, used, -, -, he⟩ | ⟨rest, -, -, he⟩ | ⟨-, -, he⟩ := step_cases s
  · cases exec_framerEffect (decode_wellFormed hd) (he.symm.trans h) with
    | untouched hframer _ => rw [hframer] at hactive; exact absurd hactive hne
    | failed e hkind _ => rw [State.raise_framer_of_ne _ _ hkind] at hactive; cases hactive
    | cleared _ hframer _ => rw [hframer] at hactive; cases hactive
    | opened => exact ⟨_, _, _, _, used, hf, rfl⟩
    | placed hwas _ => exact absurd hwas hne
    | delivered => cases hactive
  · cases he.symm.trans h
    exact absurd hactive hne
  · cases he.symm.trans h
    cases hactive
  · cases he.symm.trans h
    exact absurd hactive hne

/-- The commands that can fail with a framer error are of the framer's unit. -/
theorem framerUnit_of_failing {i : Instr}
    (hi : (∃ columns p base n, i = .hexStart columns p base n) ∨ (∃ d, i = .hexByte d) ∨ i = .hexEnd) :
    IsFramerUnit i = true := by
  obtain ⟨_, _, _, _, rfl⟩ | ⟨_, rfl⟩ | rfl := hi <;> rfl

/-- Settles O54: each effect of a step on HSTATE, by the command that has it. -/
theorem onlyFramerCommandsOpenAndClose : Obligations.OnlyFramerCommandsOpenAndClose := by
  refine ⟨fun s t => hexStart_of_opens, fun s t h hactive hidle => ?_⟩
  have hne : s.framer.hstate ≠ .idle := by rw [hactive]; decide
  obtain ⟨i, used, hd, hf, he⟩ | ⟨_, used, -, -, he⟩ | ⟨rest, -, hf, -⟩ | ⟨-, -, he⟩ := step_cases s
  · cases exec_framerEffect (decode_wellFormed hd) (he.symm.trans h) with
    | untouched hframer _ => rw [hframer] at hidle; exact absurd hidle hne
    | failed e _ hcommand =>
      exact .inr (.inr (.inr (.inr ⟨i, used, e, hf, framerUnit_of_failing hcommand, State.raise_resp _ e⟩)))
    | cleared hcommand _ _ =>
      obtain rfl | rfl := hcommand
      · exact .inr (.inr (.inl ⟨used, hf⟩))
      · exact .inr (.inr (.inr (.inl ⟨used, hf⟩)))
    | opened => simp at hidle
    | placed => simp [hactive] at hidle
    | delivered => exact .inr (.inl ⟨used, hf⟩)
  · cases he.symm.trans h
    exact absurd hidle hne
  · exact .inl ⟨rest, hf⟩
  · cases he.symm.trans h
    exact absurd hidle hne

/-! ## R194 and R200 -/

/-- No command moves on in the host's command sequence; the fetch does (R21). -/
theorem exec_keeps_pos {i : Instr} {s t : State} (hw : i.wellFormed = true) (h : exec i s = .next t) :
    t.pos = s.pos := by
  by_cases hi : i = .status
  · subst hi
    cases h
    rfl
  obtain hcrc | hframer | rfl := crcUnit_or_framerUnit_or_reset hw hi
  · obtain ⟨c', vs, hexec⟩ := settledByCrc_of_crcUnit hcrc s.crc
    cases (hexec s rfl).symm.trans h
    rfl
  · obtain ⟨f', rs, r, hexec⟩ := settledByFramer_of_framerUnit hframer s.framer
    cases (hexec s rfl).symm.trans h
    rfl
  · cases h
    rfl

/-- Settles O34: a decoded command responds once, and so does an illegal header; the other two kinds of step answer a
state too. -/
theorem everyCommandGetsOneResponse : Obligations.EveryCommandGetsOneResponse := by
  refine ⟨fun s => ?total, fun s hd => ?responds⟩
  case total =>
    obtain ⟨i, used, hd, -, he⟩ | ⟨_, used, -, -, he⟩ | ⟨rest, -, -, he⟩ | ⟨-, -, he⟩ := step_cases s
    · obtain ⟨t, hexec, -⟩ := exec_responds (decode_wellFormed hd) (s.consume used)
      exact ⟨t, he.trans hexec⟩
    · exact ⟨_, he⟩
    · exact ⟨_, he⟩
    · exact ⟨_, he⟩
  case responds =>
    obtain ⟨i, used, hi, -, he⟩ | ⟨_, used, -, -, he⟩ | ⟨rest, hinc, -, -⟩ | ⟨hinc, -, -⟩ := step_cases s
    · obtain ⟨t, hexec, hresp⟩ := exec_responds (decode_wellFormed hi) (s.consume used)
      exact ⟨t, _, he.trans hexec, hresp, exec_keeps_pos (decode_wellFormed hi) hexec⟩
    · exact ⟨_, _, he, State.raise_resp _ _, State.raise_pos _ _⟩
    · exact absurd hinc hd
    · exact absurd hinc hd

/-- A response's code is 0x00 or one of the five error codes (R200). -/
theorem code_le_five (r : Response) : r.code.toNat ≤ 5 := by
  cases r with
  | ok vs => exact Nat.zero_le 5
  | err e => cases e <;> decide

/-- Settles O35: LAST_ERR is written from a response's code, or by a reset. -/
theorem errorCodesStayLegal : Obligations.ErrorCodesStayLegal := by
  refine ⟨rfl, rfl, rfl, rfl, rfl, Nat.zero_le 5, fun s t hs h => ?_⟩
  obtain ⟨i, used, hd, -, he⟩ | ⟨_, used, -, -, he⟩ | ⟨rest, -, -, he⟩ | ⟨-, -, he⟩ := step_cases s
  · obtain ⟨t', r, hexec, -, herr⟩ := exec_lastErr (decode_wellFormed hd) (s.consume used)
    cases (he.trans hexec).symm.trans h
    rw [herr]
    split_ifs
    · exact hs
    · exact code_le_five r
  · cases he.symm.trans h
    exact code_le_five (.err .illegalCmd)
  · cases he.symm.trans h
    exact Nat.zero_le 5
  · cases he.symm.trans h
    exact hs

/-! ## R231 -/

/-- Where the words before the reset input make no command, the reset input is what the block takes next. -/
theorem fetch_resetPin {ws : List Word} (rest : List Input) (hd : decode ws = .incomplete) :
    fetch (ws.map Input.word ++ .resetPin :: rest) = .resetPin rest := by
  have harrived : arrivedWords (ws.map Input.word ++ .resetPin :: rest) = ws := by simp
  simp only [fetch, fetchIncomplete, harrived, hd, drop_sent]

/-- Settles O31: the step on the reset input, and RESET, put every register to its reset value. -/
theorem resetInputThrowsAwayAPartialCommand : Obligations.ResetInputThrowsAwayAPartialCommand := by
  refine ⟨fun s ws rest hd hs => ?_, fun s => ⟨_, exec_reset s, rfl, rfl, rfl, rfl⟩⟩
  rw [step, hs, fetch_resetPin rest hd]
  rfl

end Sys2Proof.Proofs.Steps
end

section
/-! SUPPORT. The proofs about `crc8` as a function of a number (R101, R104, R106 to R109): leading zeros, linearity, the
polynomial remainder and the appended CRC; the commands of CRC_FEED (R85); and from these the configuration word's zero
CRC and its round trip (R121, R122, R125, R126). -/

namespace Sys2Proof.Proofs.CrcAlgebra

open Sys2Proof.Machine Sys2Proof.Claims Sys2Proof.Proofs.StateRegisters Sys2Proof.Proofs.Encoding Sys2Proof.Proofs.Crc
  Sys2Proof.Proofs.CfgWord

/-! ## Leading zeros (R106) -/

theorem crcFeed_zero_number (l : Nat) : crcFeed 0x00 0 l = 0x00 := by
  induction l with
  | zero => rfl
  | succ l ih => rwa [crcFeed_succ, Nat.zero_testBit, crcStep_zero_false]

/-- Zero bits above a number leave a zero register at zero. -/
theorem crcFeed_leading_zeros {x m : Nat} (hx : x < 2 ^ m) (l : Nat) : crcFeed 0x00 x (l + m) = crcFeed 0x00 x m := by
  rw [crcFeed_add, Nat.shiftRight_eq_div_pow, Nat.div_eq_of_lt hx, crcFeed_zero_number]

theorem bitLength_le {x w : Nat} (hx : x < 2 ^ w) : bitLength x ≤ w := by
  unfold bitLength
  split_ifs with h0
  · exact Nat.zero_le w
  · exact (Nat.log2_lt h0).mpr hx

/-- In any width that holds x, feeding x into zero gives crc8(x). -/
theorem crcFeed_eq_crc8 {x w : Nat} (hx : x < 2 ^ w) : crcFeed 0x00 x w = crc8 x := by
  rw [← Nat.sub_add_cancel (bitLength_le hx), crcFeed_leading_zeros (lt_two_pow_bitLength x)]
  rfl

/-- Settles O6: the bits above the highest set one are zeros fed into a zero register. -/
theorem leadingZerosLeaveCrc8 : Obligations.LeadingZerosLeaveCrc8 := by
  refine ⟨fun x w => crcFeed_eq_crc8, fun x => crcFeed_eq_crc8 x.isLt, fun s => ?sample⟩
  case sample =>
    have hcrc : crc8 (0x00947D : Word).toNat = 0xC1 := by decide
    rw [exec_crcInt, hcrc]
    rfl

/-! ## Linearity (R107, R108) -/

/-- In a width that holds both numbers, their feeds add up. -/
theorem crc8_xor (a b : Nat) : crc8 (a ^^^ b) = crc8 a ^^^ crc8 b := by
  have ha : a < 2 ^ max (bitLength a) (bitLength b) :=
    (lt_two_pow_bitLength a).trans_le (Nat.pow_le_pow_right (by decide) (le_max_left _ _))
  have hb : b < 2 ^ max (bitLength a) (bitLength b) :=
    (lt_two_pow_bitLength b).trans_le (Nat.pow_le_pow_right (by decide) (le_max_right _ _))
  rw [← crcFeed_eq_crc8 ha, ← crcFeed_eq_crc8 hb, ← crcFeed_eq_crc8 (Nat.xor_lt_two_pow ha hb), ← crcFeed_xor]
  rfl

/-- crc8 takes the XOR of a list of powers of two to the XOR of their weights. -/
theorem foldr_crc8 (is : List Nat) :
    is.foldr (fun i acc => crc8 (2 ^ i) ^^^ acc) 0x00 = crc8 (is.foldr (fun i acc => 2 ^ i ^^^ acc) 0) := by
  induction is with
  | nil => rfl
  | cons i is ih => rw [List.foldr_cons, List.foldr_cons, ih, crc8_xor]

/-- The XOR of the powers of two of a list without repetition has exactly their bits. -/
theorem testBit_foldr_two_pow {is : List Nat} (hnodup : is.Nodup) (k : Nat) :
    (is.foldr (fun i acc => 2 ^ i ^^^ acc) 0).testBit k = decide (k ∈ is) := by
  induction is with
  | nil => simp
  | cons i is ih =>
    obtain ⟨hi, hrest⟩ := List.nodup_cons.mp hnodup
    rw [List.foldr_cons, Nat.testBit_xor, ih hrest, Nat.testBit_two_pow]
    by_cases hk : i = k
    · simp [← hk, hi]
    · simp [hk, Ne.symm hk]

/-- A number is the XOR of the powers of two of its set bits. -/
theorem foldr_set_bits (x : Nat) :
    ((List.range (bitLength x)).filter fun i => x.testBit i).foldr (fun i acc => 2 ^ i ^^^ acc) 0 = x := by
  refine Nat.eq_of_testBit_eq fun k => ?_
  rw [testBit_foldr_two_pow (List.nodup_range.filter _)]
  by_cases hk : k < bitLength x
  · simp [hk]
  · have hclear : x.testBit k = false := Nat.testBit_lt_two_pow
      ((lt_two_pow_bitLength x).trans_le (Nat.pow_le_pow_right (by decide) (Nat.le_of_not_lt hk)))
    simp [hclear]

/-- Settles O7: the step is linear in register and bit, so the feed is in register and number. -/
theorem crc8IsLinear : Obligations.Crc8IsLinear := by
  refine ⟨crc8_xor, fun x => ?sum, by decide⟩
  case sum => rw [foldr_crc8, foldr_set_bits]

/-! ## The polynomial remainder (R108) -/

/-- y is a carry-less multiple of the generator by a polynomial of degree below k. -/
def IsMultiple (y k : Nat) : Prop := ∃ q, y = clmul 0x107 q k

/-- The product reads the low k bits only. -/
theorem clmul_congr {b a a' k : Nat} (h : ∀ i < k, a.testBit i = a'.testBit i) : clmul b a k = clmul b a' k := by
  induction k with
  | zero => rfl
  | succ k ih => rw [clmul, clmul, h k (Nat.lt_succ_self k), ih fun i hi => h i (Nat.lt_succ_of_lt hi)]

/-- A multiple and the generator shifted up to its degree add up to a multiple. -/
theorem IsMultiple.xor_shifted {y k : Nat} (hy : IsMultiple y k) (fb : Bool) :
    IsMultiple ((if fb then 0x107 else 0) <<< k ^^^ y) (k + 1) := by
  obtain ⟨q, rfl⟩ := hy
  have hbits := Nat.testBit_two_pow_mul_add fb.toNat (Nat.mod_lt q (Nat.two_pow_pos k))
  have hlow : ∀ i < k, (2 ^ k * fb.toNat + q % 2 ^ k).testBit i = q.testBit i := fun i hi => by
    rw [hbits, if_pos hi, Nat.testBit_mod_two_pow, decide_eq_true hi, Bool.true_and]
  have htop : (2 ^ k * fb.toNat + q % 2 ^ k).testBit k = fb := by
    rw [hbits, if_neg (Nat.lt_irrefl k), Nat.sub_self]
    cases fb <;> rfl
  refine ⟨2 ^ k * fb.toNat + q % 2 ^ k, ?_⟩
  rw [clmul, clmul_congr hlow, htop, apply_ite (· <<< k), Nat.zero_shiftLeft]

/-- A polynomial added twice is gone. -/
theorem xor_xor_cancel (a b c : Nat) : a ^^^ c ^^^ (c ^^^ b) = a ^^^ b := by
  rw [Nat.xor_assoc, ← Nat.xor_assoc c, Nat.xor_self, Nat.zero_xor]

/-- The low l + 1 bits of a number are its bit l and its low l bits. -/
theorem mod_two_pow_succ_eq_xor (x l : Nat) : x % 2 ^ (l + 1) = (x.testBit l).toNat <<< l ^^^ x % 2 ^ l := by
  refine Nat.eq_of_testBit_eq fun j => ?_
  rw [Nat.testBit_xor, Nat.testBit_shiftLeft, Nat.testBit_mod_two_pow, Nat.testBit_mod_two_pow]
  obtain hj | rfl | hj := Nat.lt_trichotomy j l
  · simp [hj, Nat.lt_succ_of_lt hj, Nat.not_le.mpr hj]
  · cases x.testBit j <;> simp
  · have hhigh : (x.testBit l).toNat.testBit (j - l) = false :=
      Nat.testBit_lt_two_pow ((Bool.toNat_lt _).trans_le (Nat.le_pow (Nat.sub_pos_of_lt hj)))
    simp [hhigh, show ¬ j < l + 1 by omega, show ¬ j < l by omega]

/-- One step of the register is one step of the division: the bit shifted out and the bit fed in tell whether the
generator is taken off. -/
theorem crcStep_divides (r : Byte) (v : Bool) :
    r.toNat <<< 1 ^^^ v.toNat <<< 8 ^^^ (crcStep r v).toNat = if v ^^ r.getLsbD 7 then 0x107 else 0 := by
  have hout : (r.toNat <<< 1).testBit 8 = r.getLsbD 7 := by
    rw [Nat.testBit_shiftLeft, decide_eq_true (by decide), Bool.true_and]
    rfl
  have hsplit : r.toNat <<< 1 = (r.getLsbD 7).toNat <<< 8 ^^^ (r.toNat <<< 1) % 2 ^ 8 := by
    have hlt : r.toNat <<< 1 < 2 ^ (8 + 1) := by
      rw [Nat.shiftLeft_eq]
      exact Nat.mul_lt_mul_of_pos_right r.isLt (by decide)
    rw [← hout, ← mod_two_pow_succ_eq_xor, Nat.mod_eq_of_lt hlt]
  have hcancel : ∀ a b c low : Nat, a ^^^ low ^^^ b ^^^ (low ^^^ c) = a ^^^ b ^^^ c := fun a b c low => by
    rw [Nat.xor_right_comm a, xor_xor_cancel]
  rw [toNat_crcStep, show 256 = 2 ^ 8 from rfl]
  generalize (r.toNat <<< 1) % 2 ^ 8 = low at hsplit ⊢
  rw [hsplit, hcancel]
  cases v <;> cases r.getLsbD 7 <;> rfl

/-- Feeding the low l bits of x into r leaves the remainder of r(z) * z^l + x(z) * z^8. -/
theorem crcFeed_remainder (r : Byte) (x l : Nat) :
    IsMultiple (r.toNat <<< l ^^^ (x % 2 ^ l) <<< 8 ^^^ (crcFeed r x l).toNat) l := by
  induction l generalizing r with
  | zero => exact ⟨0, by simp [clmul, Nat.mod_one]⟩
  | succ l ih =>
    have hstep := congrArg (· <<< l) (crcStep_divides r (x.testBit l))
    simp only [Nat.shiftLeft_xor_distrib, ← Nat.shiftLeft_add] at hstep
    have hmultiple := (ih (crcStep r (x.testBit l))).xor_shifted (x.testBit l ^^ r.getLsbD 7)
    rw [← hstep, Nat.xor_assoc (_ <<< l), xor_xor_cancel] at hmultiple
    rw [mod_two_pow_succ_eq_xor, Nat.shiftLeft_xor_distrib, ← Nat.shiftLeft_add, crcFeed_succ]
    convert hmultiple using 1
    rw [Nat.add_comm l 1, Nat.add_comm l 8]
    ac_rfl

/-- Settles O8: from a zero register the feed is the remainder of x(z) * z^8. -/
theorem crc8IsThePolynomialRemainder : Obligations.Crc8IsThePolynomialRemainder := by
  intro x
  obtain ⟨q, hq⟩ := crcFeed_remainder 0x00 x (bitLength x)
  have hzero : (0x00 : Byte).toNat <<< bitLength x = 0 := Nat.zero_shiftLeft _
  rw [Nat.mod_eq_of_lt (lt_two_pow_bitLength x), hzero, Nat.zero_xor] at hq
  exact ⟨q, bitLength x, hq⟩

/-! ## The appended CRC (R109) -/

/-- Feeding a register its own value, from the top, shifts its bits out one by one and takes the generator off never. -/
theorem crcFeed_self (c : Byte) {l : Nat} (hl : l ≤ 8) : crcFeed (c <<< (8 - l)) c.toNat l = 0x00 := by
  induction l with
  | zero => exact BitVec.shiftLeft_eq_zero (Nat.le_refl 8)
  | succ l ih =>
    have htop : (c <<< (8 - (l + 1))).getLsbD 7 = c.toNat.testBit l := by
      rw [BitVec.getLsbD_shiftLeft, BitVec.testBit_toNat, show 7 - (8 - (l + 1)) = l by omega]
      simp
    have hstep : crcStep (c <<< (8 - (l + 1))) (c.toNat.testBit l) = c <<< (8 - l) := by
      rw [crcStep, htop, Bool.xor_self, if_neg (by decide), ← BitVec.shiftLeft_add,
        show 8 - (l + 1) + 1 = 8 - l by omega]
      exact BitVec.xor_zero
    rw [crcFeed_succ, hstep, ih (by omega)]

/-- Settles O9: after x the register holds crc8(x), and the appended bits are the register's own. -/
theorem appendedCrcGivesZero : Obligations.AppendedCrcGivesZero := by
  intro x
  have hcrc : (crc8 x).toNat < 2 ^ 8 := (crc8 x).isLt
  have hhigh : (x <<< 8 ||| (crc8 x).toNat) >>> 8 = x := by
    rw [Nat.shiftRight_or_distrib, Nat.shiftLeft_shiftRight, Nat.shiftRight_eq_div_pow, Nat.div_eq_of_lt hcrc,
      Nat.or_zero]
  have hlow : ∀ i < 8, (x <<< 8 ||| (crc8 x).toNat).testBit i = (crc8 x).toNat.testBit i := fun i hi => by
    simp [Nat.testBit_or, Nat.testBit_shiftLeft, Nat.not_le.mpr hi]
  have hwidth : x <<< 8 ||| (crc8 x).toNat < 2 ^ (bitLength x + 8) := by
    refine Nat.or_lt_two_pow ?_ (hcrc.trans_le (Nat.pow_le_pow_right (by decide) (Nat.le_add_left 8 _)))
    rw [Nat.shiftLeft_eq, Nat.pow_add]
    exact Nat.mul_lt_mul_of_pos_right (lt_two_pow_bitLength x) (by decide)
  rw [← crcFeed_eq_crc8 hwidth, crcFeed_add, hhigh, crcFeed_eq_crc8 (lt_two_pow_bitLength x), crcFeed_congr hlow]
  simpa using crcFeed_self (crc8 x) (Nat.le_refl 8)

/-! ## CRC_FEED (R85) -/

/-- The commands of CRC_FEED, once there is a bit to feed. -/
theorem execAll_crcFeed (x : Nat) {w : Nat} (hw : 1 ≤ w) (s : State) :
    execAll (crcFeedCommands x w) s = .next { s with
      crc := crcFeed s.crc x w, lastErr := 0x00, resp := s.resp ++ List.replicate w (.ok []) } := by
  induction w, hw using Nat.le_induction generalizing s with
  | base => rfl
  | succ w _ ih =>
    rw [crcFeedCommands_succ, execAll_cons_of_next (exec_crcBit _ s), ih]
    simp [List.replicate_succ]

/-- Settles O10: one CRC_BIT for each bit is the feed; where w bits hold x and CRC is zero, the feed is crc8(x). -/
theorem crcFeedGivesCrc8 : Obligations.CrcFeedGivesCrc8 := by
  refine ⟨fun x w s hw _ => execAll_crcFeed x hw s, fun x w s hw _ hx hs => ?fromZero,
    fun x w s hw h32 hx => ?afterClear⟩
  case fromZero => rw [execAll_crcFeed x hw, hs, crcFeed_eq_crc8 hx]
  case afterClear =>
    have hword : x < 2 ^ 32 := hx.trans_le (Nat.pow_le_pow_right (by decide) h32)
    refine ⟨_, _, (execAll_cons_of_next (exec_crcClr s)).trans (execAll_crcFeed x hw _), exec_crcInt _ s, ?_⟩
    rw [BitVec.toNat_ofNat, Nat.mod_eq_of_lt hword]
    exact crcFeed_eq_crc8 hx

/-! ## The configuration word (R121, R122, R125, R126) -/

theorem word3_eq_number (pin : Byte) (h : Bool) : word3 pin h = 0x929E00 + h.toNat * 0x100 + pin.toNat := by
  have hmagic : Config.magic.toNat <<< 9 = 0x929E00 := rfl
  rw [word3_eq_add, hmagic, Nat.shiftLeft_eq, Nat.add_assoc]

theorem word3_lt (pin : Byte) (h : Bool) : word3 pin h < 2 ^ 24 := by
  have hh : h.toNat ≤ 1 := Bool.toNat_le h
  rw [word3_eq_number]
  omega

/-- full_word is not cut off by the width of a word. -/
theorem toNat_fullWord_eq_or (pin : Byte) (h : Bool) :
    (fullWord pin h).toNat = word3 pin h <<< 8 ||| (crc8 (word3 pin h)).toNat := by
  have hw := word3_lt pin h
  rw [fullWord, BitVec.toNat_ofNat, Nat.mod_eq_of_lt]
  · rfl
  · refine Nat.or_lt_two_pow ?_ ((cfgCrc pin h).isLt.trans (by decide))
    rw [Nat.shiftLeft_eq]
    omega

theorem toNat_fullWord (pin : Byte) (h : Bool) :
    (fullWord pin h).toNat = 0x929E0000 + h.toNat * 0x10000 + pin.toNat * 0x100 + (crc8 (word3 pin h)).toNat := by
  rw [toNat_fullWord_eq_or, ← Nat.shiftLeft_add_eq_or_of_lt (crc8 (word3 pin h)).isLt, word3_eq_number,
    Nat.shiftLeft_eq]
  omega

/-- A field of a word as a number. -/
theorem extractLsb'_eq_of_toNat {w : Word} {start len : Nat} {x : BitVec len}
    (h : w.toNat / 2 ^ start % 2 ^ len = x.toNat) : w.extractLsb' start len = x :=
  BitVec.eq_of_toNat_eq (by rw [BitVec.extractLsb'_toNat, Nat.shiftRight_eq_div_pow, h])

theorem fullWord_magic (pin : Byte) (h : Bool) : (fullWord pin h).extractLsb' 17 15 = (0x494F : BitVec 15) :=
  extractLsb'_eq_of_toNat <| by
    have hh : h.toNat ≤ 1 := Bool.toNat_le h
    have hmagic : (0x494F : BitVec 15).toNat = 0x494F := rfl
    rw [toNat_fullWord, hmagic]
    omega

theorem fullWord_polarity (pin : Byte) (h : Bool) : (fullWord pin h).getLsbD 16 = h := by
  have hbit : (fullWord pin h).toNat / 2 ^ 16 % 2 = h.toNat := by
    have hh : h.toNat ≤ 1 := Bool.toNat_le h
    rw [toNat_fullWord]
    omega
  rw [← BitVec.testBit_toNat, Nat.testBit_eq_decide_div_mod_eq, hbit]
  cases h <;> rfl

theorem fullWord_pin (pin : Byte) (h : Bool) : (fullWord pin h).extractLsb' 8 8 = pin :=
  extractLsb'_eq_of_toNat <| by
    rw [toNat_fullWord]
    omega

theorem fullWord_crc (pin : Byte) (h : Bool) : (fullWord pin h).extractLsb' 0 8 = crc8 (word3 pin h) :=
  extractLsb'_eq_of_toNat <| by
    rw [toNat_fullWord]
    omega

theorem fullWord_byte0 (pin : Byte) (h : Bool) : wordByte (fullWord pin h) 0 = 0x92 :=
  extractLsb'_eq_of_toNat <| by
    have hh : h.toNat ≤ 1 := Bool.toNat_le h
    have hbyte : (0x92 : Byte).toNat = 0x92 := rfl
    rw [toNat_fullWord, hbyte]
    omega

theorem fullWord_byte1 (pin : Byte) (h : Bool) : wordByte (fullWord pin h) 1 = if h then 0x9F else 0x9E :=
  extractLsb'_eq_of_toNat <| by
    have hbyte : (if h then 0x9F else 0x9E : Byte).toNat = 0x9E + h.toNat := by cases h <;> rfl
    have hh : h.toNat ≤ 1 := Bool.toNat_le h
    rw [toNat_fullWord, hbyte]
    omega

/-- Settles O12: the fields are read off the word as a number, and its CRC is zero because its last byte is the CRC of
the rest (R109). -/
theorem fullWordFields : Obligations.FullWordFields := by
  refine ⟨fun s => ?sample, fun pin h => ⟨?word3, fullWord_magic pin h, fullWord_polarity pin h, fullWord_pin pin h,
    fullWord_crc pin h, fullWord_byte0 pin h, fullWord_byte1 pin h, fullWord_pin pin h, fullWord_crc pin h, ?zero⟩⟩
  case sample =>
    have hcrc : cfgCrc 5 false = 0x53 := by decide
    have hword : fullWord 5 false = 0x929E0553 := by decide
    rw [exec_cfgEnc, hcrc, hword]
  case word3 =>
    rw [word3_eq_or]
    cases h <;> rfl
  case zero =>
    rw [toNat_fullWord_eq_or]
    exact appendedCrcGivesZero _

/-- Settles O15: the word's fields are the operands, so CFG_DEC reads them back and equal words have equal operands. -/
theorem cfgDecInvertsCfgEnc : Obligations.CfgDecInvertsCfgEnc := by
  refine ⟨fun pin h s => ?roundTrip, fun pin pin' h h' hword => ⟨?pin, ?polarity⟩⟩
  case roundTrip =>
    have hpin : cfgPin (fullWord pin h) = pin := fullWord_pin pin h
    have hhigh : cfgPinHigh (fullWord pin h) = h := fullWord_polarity pin h
    refine ⟨_, _, _, exec_cfgEnc pin h s, rfl, exec_cfgDec _ _, ?_, rfl⟩
    rw [hpin, hhigh]
  case pin => rw [← fullWord_pin pin h, hword, fullWord_pin]
  case polarity => rw [← fullWord_polarity pin h, hword, fullWord_polarity]

end Sys2Proof.Proofs.CrcAlgebra
end

section
/-! SUPPORT. The proofs about records as emissions, bytes and text: the record rows (R145, R146, R149), FLUSH's checksum
from the running sum (R148), and the text of a record with its line feed (R80 to R82, R153). -/

namespace Sys2Proof.Proofs.RecordText

open Sys2Proof.Machine Sys2Proof.Claims Sys2Proof.Proofs.Encoding Sys2Proof.Proofs.IhexFramer

/-! ## The record rows -/

/-- Settles O20: each row is its procedure. -/
theorem recordRowsEmitTheirRecord : Obligations.RecordRowsEmitTheirRecord := fun _ => ⟨rfl, rfl, rfl⟩

/-! ## R148 -/

theorem toNat_currentRecord_count (f : Framer) : f.currentRecord.count.toNat = f.rcnt.toNat := by
  have hlt : f.rcnt.toNat < 64 := f.rcnt.isLt
  rw [Framer.currentRecord, BitVec.toNat_setWidth, Nat.mod_eq_of_lt (by omega)]

/-- The running sum stands for the data in the checksum, because the formula looks at totals mod 256 only. -/
theorem currentRecord_csum {f : Framer} (hsum : f.rsum.toNat = byteSum f.rdata % 256) :
    f.currentRecord.csum =
      checksum f.currentRecord.count f.currentRecord.addr f.currentRecord.rtype f.currentRecord.data := by
  rw [checksum, toNat_currentRecord_count]
  refine negMod256_congr ?_
  rw [hsum]
  exact Nat.add_mod_mod _ _ _

/-- Settles O17: R38 (d) says what the running sum is. -/
theorem runningSumGivesTheChecksum : Obligations.RunningSumGivesTheChecksum := by
  refine ⟨by decide, fun f hopen => ⟨currentRecord_csum hopen.running_sum, ?law, ?count⟩⟩
  case law => exact hopen.placing.current_checksum
  case count => exact hopen.placing.current_count

/-! ## R80 and R81 -/

/-- Two digits of a byte, its upper four bits first. -/
def byteDigits (b : Byte) : List Byte :=
  [hexDigit (b.extractLsb' 4 4).toNat, hexDigit (b.extractLsb' 0 4).toNat]

theorem hexDigits_two (b : Byte) : hexDigits 2 b.toNat = byteDigits b := rfl

theorem hexDigits_four (a : Half) : hexDigits 4 a.toNat = byteDigits (addrHigh a) ++ byteDigits (addrLow a) := by
  have h3 : a.toNat >>> 12 % 16 = ((addrHigh a).extractLsb' 4 4).toNat := by
    simp only [addrHigh, BitVec.extractLsb'_toNat, Nat.shiftRight_eq_div_pow]
    omega
  have h2 : a.toNat >>> 8 % 16 = ((addrHigh a).extractLsb' 0 4).toNat := by
    simp only [addrHigh, BitVec.extractLsb'_toNat, Nat.shiftRight_eq_div_pow]
    omega
  have h1 : a.toNat >>> 4 % 16 = ((addrLow a).extractLsb' 4 4).toNat := by
    simp only [addrLow, BitVec.extractLsb'_toNat, Nat.shiftRight_eq_div_pow]
    omega
  have h0 : a.toNat >>> 0 % 16 = ((addrLow a).extractLsb' 0 4).toNat := by
    simp only [addrLow, BitVec.extractLsb'_toNat, Nat.shiftRight_eq_div_pow]
    omega
  simp only [hexDigits, byteDigits, Nat.reduceMul, Nat.mul_one, Nat.mul_zero, h3, h2, h1, h0, List.cons_append,
    List.nil_append]

/-- The fields that R80 renders one by one are the byte form of R78. -/
theorem recordText_eq (r : Record) : recordText r = 0x3A :: (recordBytes r).flatMap byteDigits := by
  simp only [recordText, recordBytes, hexDigits_two, hexDigits_four, List.flatMap_append, List.flatMap_cons,
    List.flatMap_nil, List.append_nil, List.append_assoc]

theorem length_recordBytes (r : Record) : (recordBytes r).length = r.data.length + 5 := by
  simp only [recordBytes, List.length_append, List.length_cons, List.length_nil]
  omega

theorem length_flatMap_byteDigits (bs : List Byte) : (bs.flatMap byteDigits).length = 2 * bs.length := by
  induction bs with
  | nil => rfl
  | cons b bs ih =>
    rw [List.flatMap_cons, List.length_append, ih, List.length_cons, byteDigits]
    simp only [List.length_cons, List.length_nil]
    omega

/-- A character is a digit 0 to 9 or an upper-case A to F (R81). -/
def IsHexDigit (c : Byte) : Prop := (0x30 ≤ c.toNat ∧ c.toNat ≤ 0x39) ∨ (0x41 ≤ c.toNat ∧ c.toNat ≤ 0x46)

theorem isHexDigit_hexDigit (d : BitVec 4) : IsHexDigit (hexDigit d.toNat) := by
  have hlt : d.toNat < 16 := d.isLt
  unfold IsHexDigit hexDigit
  split_ifs with h10
  · rw [BitVec.toNat_ofNat]
    omega
  · rw [BitVec.toNat_ofNat]
    omega

/-- Every character after the colon is a digit. -/
theorem isHexDigit_of_mem {r : Record} {c : Byte} (hc : c ∈ (recordText r).drop 1) : IsHexDigit c := by
  rw [recordText_eq, List.drop_succ_cons, List.drop_zero, List.mem_flatMap] at hc
  obtain ⟨b, -, hb⟩ := hc
  rw [byteDigits, List.mem_pair] at hb
  obtain rfl | rfl := hb
  · exact isHexDigit_hexDigit _
  · exact isHexDigit_hexDigit _

/-- Settles O21: the text is the colon and the digits of the record's bytes. -/
theorem recordTextIsHexOfItsBytes : Obligations.RecordTextIsHexOfItsBytes := by
  refine ⟨by decide, by decide, recordText_eq, fun r hcount => ?length, by decide, fun r c hc => ?digits⟩
  case length =>
    have hdata : r.data.length = r.count.toNat := hcount
    rw [recordText_eq, List.length_cons, length_flatMap_byteDigits, length_recordBytes, hdata]
    omega
  case digits => exact isHexDigit_of_mem hc

/-! ## R82 and R153 -/

/-- The text of a record holds no character below the digits, so neither a line feed nor a carriage return. -/
theorem not_mem_recordText {c : Byte} (hc : c.toNat < 0x30) (r : Record) : c ∉ recordText r := by
  intro hmem
  rw [recordText_eq, List.mem_cons] at hmem
  obtain rfl | htail := hmem
  · exact absurd hc (by decide)
  · have hdigit : IsHexDigit c := isHexDigit_of_mem (r := r) (by rwa [recordText_eq])
    unfold IsHexDigit at hdigit
    omega

/-- The text of an encode ends in the line of EOF, the last record HEX_END emits (R151). -/
theorem encodeText_eq (buf : List Byte) (base : Word) (columns : Byte) (p : Bool) :
    ∃ rs, encodeText buf base columns p = renderAll rs ++ render eofRecord := by
  rw [encodeText, ihexEncode, closed_pend, renderAll, List.flatMap_append, List.flatMap_singleton]
  exact ⟨_, rfl⟩

/-- Settles O22: a record's text is of digits, and the line feed comes after it. -/
theorem everyLineEndsInOneLineFeed : Obligations.EveryLineEndsInOneLineFeed := by
  refine ⟨fun r => ⟨rfl, not_mem_recordText (by decide) r, ?noReturn⟩, fun buf base columns p => ?eof⟩
  case noReturn =>
    rw [render, List.mem_append, not_or]
    exact ⟨not_mem_recordText (by decide) r, by decide⟩
  case eof =>
    have heof : render eofRecord =
        [0x3A, 0x30, 0x30, 0x30, 0x30, 0x30, 0x30, 0x30, 0x31, 0x46, 0x46, 0x0A] := by decide
    obtain ⟨rs, htext⟩ := encodeText_eq buf base columns p
    exact ⟨renderAll rs, by rw [htext, heof]⟩

end Sys2Proof.Proofs.RecordText
end

section
/-! SUPPORT. The proofs about a whole encode (R140): the commands of HEX_ENCODE deliver `ihexEncode`; and, by induction
over the stream bytes placed so far, the shape of its record list (R154, R162), its record counts (R155), its ELA
records (R157) and its reading (R52, R158); and the encode of an empty buffer (R159, R161). -/

namespace Sys2Proof.Proofs.WholeEncode

open Sys2Proof.Machine Sys2Proof.Claims Sys2Proof.Proofs.StateRegisters Sys2Proof.Proofs.Encoding
  Sys2Proof.Proofs.IhexFramer Sys2Proof.Proofs.Steps Sys2Proof.Proofs.RecordText

/-! ## The stream of an encode -/

section Stream

variable {buf : List Byte} {base : Word} {columns : Byte} {p : Bool}

theorem toNat_bufLen (henc : Encodable buf base columns p) : (bufLen buf).toNat = buf.length := by
  obtain ⟨-, hlt, -⟩ := henc
  rw [bufLen, BitVec.toNat_ofNat, Nat.mod_eq_of_lt hlt]

theorem length_encodeStream (buf : List Byte) (p : Bool) :
    (encodeStream buf p).length = buf.length + (if p then 4 else 0) := by
  rw [encodeStream, stream, List.length_append, length_sizePrefix, prefixLength_eq, Nat.add_comm]

theorem stream_fits (henc : Encodable buf base columns p) : base.toNat + (encodeStream buf p).length ≤ 2 ^ 32 := by
  obtain ⟨-, -, hfits⟩ := henc
  rw [length_encodeStream]
  omega

/-- What holds of the framer at HEX_START, and stays so when the next byte of the stream is placed, holds when the whole
stream is. -/
theorem encodeFramer_induction {P : List Byte → Framer → Prop} (henc : Encodable buf base columns p)
    (start : P [] (Framer.opened columns p base (bufLen buf)))
    (next : ∀ ds d f, f.Placing (base.toNat + ds.length) → ds.length < (encodeStream buf p).length → P ds f →
      P (ds ++ [d]) (f.place d (base.toNat + ds.length))) :
    P (encodeStream buf p) (encodeFramer buf base columns p) := by
  have hfits := stream_fits henc
  have hopened := Framer.opened_placing p base (bufLen buf) ((legalColumns_iff columns).mpr henc.1)
  have hall : ∀ ds : List Byte, ds.length ≤ (encodeStream buf p).length →
      P ds ((Framer.opened columns p base (bufLen buf)).placeAll base.toNat ds) := by
    intro ds
    induction ds using List.reverseRecOn with
    | nil => exact fun _ => start
    | append_singleton ds d ih =>
      intro hlen
      rw [List.length_append, List.length_singleton] at hlen
      rw [Framer.placeAll_append]
      exact next ds d _ (hopened.placeAll ds (by omega)).1 (by omega) (ih (by omega))
  exact hall _ (Nat.le_refl _)

/-- After the whole stream the framer is placing at the address after it, and a stream that is not empty leaves a byte
in the current record. -/
theorem encodeFramer_placing (henc : Encodable buf base columns p) :
    (encodeFramer buf base columns p).Placing (base.toNat + (encodeStream buf p).length) ∧
      (encodeStream buf p ≠ [] → 0 < (encodeFramer buf base columns p).rcnt.toNat) :=
  (Framer.opened_placing p base (bufLen buf) ((legalColumns_iff columns).mpr henc.1)).placeAll _ (stream_fits henc)

end Stream

/-! ## HEX_ENCODE (R84, R140) -/

/-- PLACE neither reads nor writes K. -/
theorem place_setK (f : Framer) (k : Word) (d : Byte) (rel : Nat) :
    ({ f with k := k } : Framer).place d rel = { f.place d rel with k := k } := by
  simp only [Framer.place, Framer.makeRoom]
  split_ifs <;> rfl

theorem placeAll_setK (f : Framer) (k : Word) (rel : Nat) (ds : List Byte) :
    ({ f with k := k } : Framer).placeAll rel ds = { f.placeAll rel ds with k := k } := by
  induction ds generalizing f rel with
  | nil => rfl
  | cons d ds ih => rw [Framer.placeAll_cons, Framer.placeAll_cons, place_setK, ih]

/-- Accepting the bytes of a buffer places them one after the other and counts them. -/
theorem foldl_accept_eq {f : Framer} {buf : List Byte} (hroom : f.k.toNat + buf.length ≤ f.len.toNat) :
    ∃ k, buf.foldl Framer.accept f = { f.placeAll f.nextAddress buf with k := k } := by
  induction buf generalizing f with
  | nil => exact ⟨f.k, rfl⟩
  | cons d buf ih =>
    rw [List.length_cons] at hroom
    have hk := toNat_k_add_one (f := f) (by omega)
    obtain ⟨k, hfold⟩ := ih (f := f.accept d) (by
      rw [Framer.accept_k, Framer.accept_len, Framer.place_len, hk]
      omega)
    refine ⟨k, ?_⟩
    rw [List.foldl_cons, hfold, nextAddress_accept hk, Framer.accept, placeAll_setK, Framer.placeAll_cons]

/-- The records HEX_END delivers do not depend on K. -/
theorem closed_pend_setK (f : Framer) (k : Word) : ({ f with k := k } : Framer).closed.pend = f.closed.pend := by
  rw [closed_pend, closed_pend]
  rfl

/-- The framer's own run of an encode delivers `ihexEncode`: the prefix and then the buffer are the stream. -/
theorem closed_pend_run {buf : List Byte} {base : Word} {columns : Byte} {p : Bool}
    (henc : Encodable buf base columns p) :
    (buf.foldl Framer.accept (Framer.started columns p base (bufLen buf))).closed.pend =
      ihexEncode buf base columns p := by
  obtain ⟨k, hfold⟩ := foldl_accept_eq (f := Framer.started columns p base (bufLen buf)) (buf := buf) (by
    rw [started_k, started_len, toNat_bufLen henc]
    exact (Nat.zero_add _).le)
  rw [hfold, closed_pend_setK, nextAddress_started, Framer.started_eq, ← length_sizePrefix p (bufLen buf),
    ← Framer.placeAll_append]
  rfl

/-- Settles O55: the run of the commands, whose records are those of the stream placed as a whole. -/
theorem hexEncodeDeliversIhexEncode : Obligations.HexEncodeDeliversIhexEncode := by
  intro buf base columns p s henc hinv hidle
  obtain ⟨hcols, -, hfits⟩ := id henc
  have hn := toNat_bufLen henc
  rw [hexEncodeCommands, ← bufLen, execAll_encode hidle hcols (by omega) hn.symm (closed_pend_run henc),
    ← hinv.idle hidle]

/-! ## The shape of the record list (R154, R162) -/

/-- A record before an ELA is data up to its segment's end. -/
def ReachesSegmentEnd (a b : Record) : Prop := b.IsEla → a.IsData ∧ a.addr.toNat + a.count.toNat = 0x10000

/-- An ELA, then data and ELA records, with no ELA but after a data record that reaches its segment's end. -/
def WellShaped (rs : List Record) : Prop :=
  (∃ first mid, rs = first :: mid ∧ first.IsEla ∧ ∀ r ∈ mid, r.IsData ∨ r.IsEla) ∧ rs.IsChain ReachesSegmentEnd

theorem wellShaped_singleton {r : Record} (hr : r.IsEla) : WellShaped [r] :=
  ⟨⟨r, [], rfl, hr, nofun⟩, List.isChain_singleton r⟩

theorem WellShaped.concat_data {rs : List Record} {r : Record} (h : WellShaped rs) (hr : r.IsData) :
    WellShaped (rs ++ [r]) := by
  obtain ⟨⟨first, mid, rfl, hfirst, hmid⟩, hchain⟩ := h
  refine ⟨⟨first, mid ++ [r], rfl, hfirst, forall_mem_concat hmid (.inl hr)⟩, ?_⟩
  refine List.isChain_append.mpr ⟨hchain, List.isChain_singleton r, fun a _ b hb hela => ?_⟩
  rw [List.head?_cons, Option.mem_some] at hb
  subst hb
  exact absurd hr (Record.IsEla.not_isData hela)

theorem WellShaped.concat_crossing {rs : List Record} {r e : Record} (h : WellShaped rs) (hr : r.IsData)
    (hend : r.addr.toNat + r.count.toNat = 0x10000) (he : e.IsEla) : WellShaped (rs ++ [r] ++ [e]) := by
  obtain ⟨⟨first, mid, heq, hfirst, hmid⟩, hchain⟩ := h.concat_data hr
  refine ⟨⟨first, mid ++ [e], by rw [heq]; rfl, hfirst, forall_mem_concat hmid (.inr he)⟩, ?_⟩
  refine List.isChain_append.mpr ⟨hchain, List.isChain_singleton e, fun a ha b _ _ => ?_⟩
  rw [List.getLast?_concat, Option.mem_some] at ha
  exact ha ▸ ⟨hr, hend⟩

/-- PLACE keeps the shape: it flushes before a crossing only a record that reaches the segment's end. -/
theorem place_wellShaped {f : Framer} {rel : Nat} (h : f.Placing rel) (d : Byte) (hs : WellShaped f.pend) :
    WellShaped (f.place d rel).pend := by
  obtain ⟨hcross, he⟩ | ⟨-, hfull, he⟩ | ⟨-, -, he⟩ := f.place_cases d rel
  · obtain ⟨hpos, hend⟩ := h.crossing hcross
    rw [he]
    refine hs.concat_crossing (h.current_isData hpos) ?_ (elaRecord_isEla _)
    rw [toNat_currentRecord_count]
    exact hend
  · rw [he]
    exact hs.concat_data (h.current_isData (h.full hfull))
  · rw [he]
    exact hs

/-- All records of an encode but EOF. -/
theorem exists_wellShaped {buf : List Byte} {base : Word} {columns : Byte} {p : Bool}
    (henc : Encodable buf base columns p) :
    ∃ rs, ihexEncode buf base columns p = rs ++ [eofRecord] ∧ WellShaped rs := by
  have hshape : WellShaped (encodeFramer buf base columns p).pend :=
    encodeFramer_induction (P := fun _ f => WellShaped f.pend) henc (wellShaped_singleton (elaRecord_isEla _))
      fun _ d _ hplacing _ => place_wellShaped hplacing d
  refine ⟨_, closed_pend _, ?_⟩
  split_ifs with hempty
  · exact hshape
  · exact hshape.concat_data ((encodeFramer_placing henc).1.current_isData
      (Nat.pos_of_ne_zero fun h0 => hempty (BitVec.eq_of_toNat_eq h0)))

/-- Settles O56: the shape of the pending records, to which HEX_END adds at most a data record before EOF. -/
theorem encodeShape : Obligations.EncodeShape := by
  intro buf base columns p henc
  obtain ⟨rs, hrs, ⟨first, mid, rfl, hfirst, hmid⟩, hchain⟩ := exists_wellShaped henc
  refine ⟨first, mid, hrs, hfirst, hmid, fun a b front back hsplit => ?_⟩
  rw [hsplit, List.isChain_append_cons_cons] at hchain
  exact hchain.2.1

/-! ## The record count in one segment (R155) -/

/-- What is pending after so many bytes that have not left the first segment: an ELA and full data records; the other
bytes are in the current record. -/
structure InFirstSegment (base : Word) (columns : Byte) (placed : Nat) (f : Framer) : Prop where
  offb : f.offb = segmentBase base
  cols : f.cols = columns
  pending : ∃ first mid, f.pend = first :: mid ∧ first.IsEla ∧
    (∀ r ∈ mid, r.IsData ∧ r.count.toNat = columns.toNat) ∧ placed = columns.toNat * mid.length + f.rcnt.toNat

theorem InFirstSegment.place {base : Word} {columns : Byte} {placed : Nat} {f : Framer}
    (h : InFirstSegment base columns placed f) (hplacing : f.Placing (base.toNat + placed))
    (hstays : base.toNat % 0x10000 + placed < 0x10000) (d : Byte) :
    InFirstSegment base columns (placed + 1) (f.place d (base.toNat + placed)) := by
  obtain ⟨first, mid, hpend, hfirst, hmid, hplaced⟩ := h.pending
  have hoffb := segmentBase_toNat base
  rw [← h.offb] at hoffb
  have hcols := hplacing.cols_cases
  have hcount := hplacing.rcnt_le_cols
  have hnocross : base.toNat + placed - f.offb.toNat ≠ Config.segment := by
    simp only [Config.segment] at hoffb ⊢
    omega
  by_cases hfull : f.rcnt.toNat = f.cols.toNat
  · rw [place_of_full hnocross hfull]
    refine ⟨h.offb, h.cols, first, mid ++ [f.currentRecord], by simp [hpend], hfirst, ?_, ?_⟩
    · refine forall_mem_concat hmid ⟨hplacing.current_isData (hplacing.full hfull), ?_⟩
      rw [toNat_currentRecord_count, hfull, h.cols]
    · have hone : ((f.wrap (base.toNat + placed)).append d).rcnt.toNat = 1 := rfl
      rw [h.cols] at hfull
      rw [hone, hplaced, hfull, List.length_append, List.length_singleton, Nat.mul_succ]
  · rw [place_of_room hnocross hfull]
    refine ⟨h.offb, h.cols, first, mid, hpend, hfirst, hmid, ?_⟩
    rw [toNat_append_rcnt (by omega), hplaced, Nat.add_assoc]

/-- Settles O57: the data records are the full ones and, unless the stream is empty, the current one of 1 to `columns`
bytes that HEX_END flushes. -/
theorem recordCountInOneSegment : Obligations.RecordCountInOneSegment := by
  intro buf base columns p n m henc hn hsegment hm
  rw [← length_encodeStream] at hn
  obtain ⟨hplacing, hpos⟩ := encodeFramer_placing henc
  obtain ⟨-, hcols, first, mid, hpend, hfirst, hmid, hplaced⟩ : InFirstSegment base columns (encodeStream buf p).length
      (encodeFramer buf base columns p) := by
    refine encodeFramer_induction (P := fun ds f => InFirstSegment base columns ds.length f) henc
      ⟨rfl, rfl, _, [], rfl, elaRecord_isEla _, nofun, rfl⟩ fun ds d f hf hlt h => ?_
    rw [List.length_append, List.length_singleton]
    exact h.place hf (by omega) d
  have hle := hplacing.rcnt_le_cols
  have hwidth := toNat_columns henc.1
  have hrecords := closed_pend (encodeFramer buf base columns p)
  have hdata : ∀ r ∈ mid, r.IsData := fun r hr => (hmid r hr).1
  have hcounts : mid.map (fun r => r.count.toNat) = List.replicate mid.length columns.toNat :=
    List.map_eq_replicate_iff.mpr fun r hr => (hmid r hr).2
  rw [hcols] at hle
  rw [← hn] at hplaced
  by_cases hempty : (encodeFramer buf base columns p).rcnt = 0
  · have hnil : n = 0 := by
      rw [hn, List.length_eq_zero_iff]
      by_contra hne
      exact absurd (congrArg BitVec.toNat hempty) (hpos hne).ne'
    have hm0 : mid.length = m := by
      obtain hw | hw := hwidth <;> rw [hw] at hplaced hm <;> omega
    rw [if_pos hempty, hpend] at hrecords
    exact ⟨first, mid, hrecords, hfirst, hdata, hm0, fun hn0 => absurd hnil hn0.ne'⟩
  · have hrcnt : 0 < (encodeFramer buf base columns p).rcnt.toNat :=
      Nat.pos_of_ne_zero fun h0 => hempty (BitVec.eq_of_toNat_eq h0)
    have hm1 : mid.length + 1 = m := by
      obtain hw | hw := hwidth <;> rw [hw] at hplaced hm hle <;> omega
    rw [if_neg hempty, Framer.flush_pend, hpend] at hrecords
    refine ⟨first, mid ++ [(encodeFramer buf base columns p).currentRecord], hrecords, hfirst,
      forall_mem_concat hdata (hplacing.current_isData hrcnt), ?_, fun _ => ?_⟩
    · rw [List.length_append, List.length_singleton, hm1]
    · rw [List.map_append, hcounts, List.map_singleton, toNat_currentRecord_count, hplaced, ← hm1, Nat.add_sub_cancel,
        Nat.add_sub_cancel_left]

/-! ## One ELA record for each segment (R157) -/

/-- The data bytes of a record list's ELA records. -/
def elaTargets (rs : List Record) : List (List Nat) := (elaRecords rs).map fun r => r.data.map BitVec.toNat

theorem elaTargets_append (rs rs' : List Record) : elaTargets (rs ++ rs') = elaTargets rs ++ elaTargets rs' := by
  rw [elaTargets, elaRecords, List.filter_append, List.map_append]
  rfl

theorem elaTargets_currentRecord (f : Framer) : elaTargets [f.currentRecord] = [] := rfl

/-- The two data bytes of an ELA are the segment's number, high byte first (R54). -/
theorem toNat_elaData (ob : Word) :
    (wordByte ob 0).toNat = ob.toNat / 0x10000 / 256 ∧ (wordByte ob 1).toNat = ob.toNat / 0x10000 % 256 := by
  refine ⟨?_, ?_⟩
  · rw [wordByte, BitVec.extractLsb'_toNat, Nat.shiftRight_eq_div_pow]
    omega
  · rw [wordByte, BitVec.extractLsb'_toNat, Nat.shiftRight_eq_div_pow]

theorem elaTargets_elaRecord (ob : Word) :
    elaTargets [elaRecord ob] = [[ob.toNat / 0x10000 / 256, ob.toNat / 0x10000 % 256]] := by
  obtain ⟨hhigh, hlow⟩ := toNat_elaData ob
  rw [← hhigh, ← hlow]
  rfl

/-- The segments from that of `base` on, as ELA records name them. -/
def segmentsFrom (base count : Nat) : List (List Nat) :=
  (List.range count).map fun i => [(base / 0x10000 + i) / 256, (base / 0x10000 + i) % 256]

theorem segmentsFrom_succ (base count : Nat) : segmentsFrom base (count + 1) =
    segmentsFrom base count ++ [[(base / 0x10000 + count) / 256, (base / 0x10000 + count) % 256]] := by
  rw [segmentsFrom, List.range_succ, List.map_append]
  rfl

/-- The pending ELA records name the segments from that of `base` up to that of OFFB. -/
structure NamesSegments (base : Nat) (f : Framer) : Prop where
  base_le : base / 0x10000 ≤ f.offb.toNat / 0x10000
  targets : elaTargets f.pend = segmentsFrom base (f.offb.toNat / 0x10000 - base / 0x10000 + 1)

theorem NamesSegments.place {base rel : Nat} {f : Framer} (h : NamesSegments base f) (hplacing : f.Placing rel)
    (hrel : rel < 2 ^ 32) (d : Byte) : NamesSegments base (f.place d rel) := by
  obtain ⟨hle, htargets⟩ := h
  obtain ⟨hcross, he⟩ | ⟨-, -, he⟩ | ⟨-, -, he⟩ := f.place_cases d rel
  · have hoffb : ((f.cross rel).append d).offb.toNat = rel := by
      rw [Framer.append_offb, Framer.cross_offb, BitVec.toNat_ofNat, Nat.mod_eq_of_lt hrel]
    have hnext : rel / 0x10000 = f.offb.toNat / 0x10000 + 1 := by
      have hwithin := hplacing.within_segment
      simp only [Config.segment] at hcross hwithin
      omega
    rw [he]
    refine ⟨by rw [hoffb]; omega, ?_⟩
    rw [hoffb, Framer.append_pend, Framer.cross_pend, elaTargets_append, elaTargets_append, htargets,
      elaTargets_currentRecord, elaTargets_elaRecord, List.append_nil, BitVec.toNat_ofNat, Nat.mod_eq_of_lt hrel,
      segmentsFrom_succ base (rel / 0x10000 - base / 0x10000)]
    rw [show rel / 0x10000 - base / 0x10000 = f.offb.toNat / 0x10000 - base / 0x10000 + 1 by omega,
      show base / 0x10000 + (f.offb.toNat / 0x10000 - base / 0x10000 + 1) = rel / 0x10000 by omega]
  · rw [he]
    refine ⟨hle, ?_⟩
    rw [Framer.append_pend, Framer.wrap_pend, elaTargets_append, elaTargets_currentRecord, List.append_nil]
    exact htargets
  · rw [he]
    exact ⟨hle, htargets⟩

/-- Settles O58: the last ELA names the segment of OFFB, which is that of the last byte placed. -/
theorem oneElaPerSegment : Obligations.OneElaPerSegment := by
  intro buf base columns p n henc hn
  rw [← length_encodeStream] at hn
  have hfits := stream_fits henc
  have hsegment : (segmentBase base).toNat / 0x10000 = base.toNat / 0x10000 := by
    rw [segmentBase_toNat]
    simp only [Config.segment]
    omega
  obtain ⟨-, htargets⟩ : NamesSegments base.toNat (encodeFramer buf base columns p) := by
    refine encodeFramer_induction (P := fun _ f => NamesSegments base.toNat f) henc ⟨?_, ?_⟩
      fun ds d f hf hlt h => h.place hf (by omega) d
    · exact hsegment.ge
    · rw [opened_pend, opened_offb, elaTargets_elaRecord, hsegment, Nat.sub_self]
      rfl
  have hlast : (encodeFramer buf base columns p).offb.toNat / 0x10000 = (base.toNat + (n - 1)) / 0x10000 := by
    obtain ⟨hplacing, hpos⟩ := encodeFramer_placing henc
    have hposition := hplacing.position
    have hwithin := hplacing.within_segment
    have haligned := hplacing.offb_aligned
    simp only [Config.segment] at hwithin haligned
    by_cases hnil : encodeStream buf p = []
    · rw [encodeFramer, hnil, Framer.placeAll_nil, opened_offb, hsegment, hn, hnil]
      rfl
    · have hrcnt := hpos hnil
      have hn0 : 0 < n := by rwa [hn, List.length_pos_iff]
      omega
  have hclosed : elaTargets (ihexEncode buf base columns p) = elaTargets (encodeFramer buf base columns p).pend := by
    rw [ihexEncode, closed_pend, elaTargets_append]
    split_ifs
    · exact List.append_nil _
    · rw [Framer.flush_pend, elaTargets_append, elaTargets_currentRecord, List.append_nil]
      exact List.append_nil _
  rw [hlast] at htargets
  exact hclosed.trans htargets

/-! ## Reading the records back (R52, R158) -/

/-- The upper address that the latest ELA record of a list names, or `u` if there is none (R52). -/
def upperAfter (u : Nat) : List Record → Nat
  | [] => u
  | r :: rs =>
    upperAfter (if r.rtype = 0x04 then (r.data.getD 0 0).toNat <<< 8 ||| (r.data.getD 1 0).toNat else u) rs

theorem upperAfter_append (u : Nat) (rs rs' : List Record) :
    upperAfter u (rs ++ rs') = upperAfter (upperAfter u rs) rs' := by
  induction rs generalizing u with
  | nil => rfl
  | cons r rs ih => exact ih _

theorem readBack_append (u : Nat) (rs rs' : List Record) :
    readBack u (rs ++ rs') = readBack u rs ++ readBack (upperAfter u rs) rs' := by
  induction rs generalizing u with
  | nil => rfl
  | cons r rs ih =>
    rw [List.cons_append, readBack, readBack, upperAfter]
    split_ifs with hela hdata
    · exact ih _
    · rw [ih, List.append_assoc]
    · exact ih _

theorem upperAfter_currentRecord (u : Nat) (f : Framer) : upperAfter u [f.currentRecord] = u := rfl

theorem readBack_currentRecord (u : Nat) (f : Framer) :
    readBack u [f.currentRecord] = placedFrom (u <<< 16 + f.raddr.toNat) f.rdata :=
  List.append_nil _

theorem upperAfter_elaRecord (u : Nat) (ob : Word) : upperAfter u [elaRecord ob] = ob.toNat / 0x10000 := by
  obtain ⟨hhigh, hlow⟩ := toNat_elaData ob
  have hor : (wordByte ob 0).toNat <<< 8 ||| (wordByte ob 1).toNat = ob.toNat / 0x10000 := by
    rw [← Nat.shiftLeft_add_eq_or_of_lt (wordByte ob 1).isLt, hhigh, hlow, Nat.shiftLeft_eq]
    omega
  exact hor

theorem readBack_elaRecord (u : Nat) (ob : Word) : readBack u [elaRecord ob] = [] := rfl

theorem placedFrom_concat (a : Nat) (ds : List Byte) (d : Byte) :
    placedFrom a (ds ++ [d]) = placedFrom a ds ++ [(a + ds.length, d)] := by
  induction ds generalizing a with
  | nil => rfl
  | cons e ds ih =>
    rw [List.cons_append, placedFrom, ih, placedFrom, List.cons_append, List.length_cons, Nat.add_right_comm a,
      Nat.add_assoc a]

/-- The pending records and the current one place these bytes, from `base` on, and the latest ELA names OFFB. -/
structure ReadsAs (base : Nat) (ds : List Byte) (f : Framer) : Prop where
  upper : upperAfter 0 f.pend = f.offb.toNat / 0x10000
  bytes : readBack 0 f.pend ++ placedFrom (f.offb.toNat + f.raddr.toNat) f.rdata = placedFrom base ds

/-- Emitting the current record puts its bytes where they were. -/
theorem ReadsAs.readBack_flush {base : Nat} {ds : List Byte} {f : Framer} (h : ReadsAs base ds f)
    (haligned : f.offb.toNat % Config.segment = 0) : readBack 0 (f.pend ++ [f.currentRecord]) = placedFrom base ds := by
  have hoffb : (f.offb.toNat / 0x10000) <<< 16 = f.offb.toNat := by
    rw [Nat.shiftLeft_eq]
    simp only [Config.segment] at haligned
    omega
  rw [readBack_append, h.upper, readBack_currentRecord, hoffb, h.bytes]

/-- PLACE puts the next byte after those placed before (R144). -/
theorem ReadsAs.place {base : Nat} {ds : List Byte} {f : Framer} (h : ReadsAs base ds f)
    (hplacing : f.Placing (base + ds.length)) (hrel : base + ds.length < 2 ^ 32) (d : Byte) :
    ReadsAs base (ds ++ [d]) (f.place d (base + ds.length)) := by
  have hflush := h.readBack_flush hplacing.offb_aligned
  have hposition := hplacing.position
  have hwithin := hplacing.within_segment
  obtain ⟨hcross, he⟩ | ⟨hnocross, -, he⟩ | ⟨-, -, he⟩ := f.place_cases d (base + ds.length)
  · have hrel' : (BitVec.ofNat 32 (base + ds.length)).toNat = base + ds.length := by
      rw [BitVec.toNat_ofNat, Nat.mod_eq_of_lt hrel]
    rw [he]
    refine ⟨?_, ?_⟩
    · rw [Framer.append_pend, Framer.cross_pend, upperAfter_append, upperAfter_elaRecord]
      rfl
    · rw [Framer.append_pend, Framer.cross_pend, readBack_append, hflush, readBack_elaRecord, List.append_nil,
        placedFrom_concat, Framer.append_offb, Framer.cross_offb, hrel']
      rfl
  · have hraddr : f.offb.toNat + (BitVec.ofNat 16 (base + ds.length - f.offb.toNat)).toNat = base + ds.length := by
      simp only [Config.segment] at hwithin hnocross
      rw [BitVec.toNat_ofNat, Nat.mod_eq_of_lt (by omega)]
      omega
    rw [he]
    refine ⟨?_, ?_⟩
    · rw [Framer.append_pend, Framer.wrap_pend, upperAfter_append, upperAfter_currentRecord]
      exact h.upper
    · rw [Framer.append_pend, Framer.wrap_pend, hflush, placedFrom_concat, Framer.append_offb, Framer.wrap_offb,
        Framer.append_raddr, Framer.wrap_raddr, hraddr]
      rfl
  · rw [he]
    refine ⟨h.upper, ?_⟩
    rw [Framer.append_pend, Framer.append_rdata, Framer.append_offb, Framer.append_raddr, placedFrom_concat,
      placedFrom_concat, ← List.append_assoc, h.bytes, hplacing.rdata_length, hposition]

/-- Settles O59: EOF places nothing, and the current record its bytes, flushed or not. -/
theorem encodeReadsBackAsTheStream : Obligations.EncodeReadsBackAsTheStream := by
  intro buf base columns p henc
  have hfits := stream_fits henc
  have hreads : ReadsAs base.toNat (encodeStream buf p) (encodeFramer buf base columns p) := by
    refine encodeFramer_induction (P := ReadsAs base.toNat) henc ⟨?_, ?_⟩ fun ds d f hf hlt h => h.place hf (by omega) d
    · exact upperAfter_elaRecord 0 _
    · rfl
  have hclosed : readBack 0 (ihexEncode buf base columns p) = placedFrom base.toNat (encodeStream buf p) := by
    have hplacing := (encodeFramer_placing henc).1
    have heof : ∀ u, readBack u [eofRecord] = [] := fun _ => rfl
    rw [ihexEncode, closed_pend, readBack_append, heof, List.append_nil]
    split_ifs with hempty
    · have hnil : (encodeFramer buf base columns p).rdata = [] := by
        rw [← List.length_eq_zero_iff, hplacing.rdata_length, hempty]
        rfl
      rw [← hreads.bytes, hnil, placedFrom, List.append_nil]
    · exact hreads.readBack_flush hplacing.offb_aligned
  rw [hclosed]
  cases p <;> rfl

/-! ## The empty buffer (R159, R161) -/

/-- With the prefix, the stream of an empty buffer is all placed by HEX_START. -/
theorem ihexEncode_nil (base : Word) (columns : Byte) :
    ihexEncode [] base columns true = (Framer.started columns true base 0).closed.pend := by
  rw [Framer.started_eq]
  rfl

/-- Settles O60: where the prefix does not cross, its four zeros are the current record; where it does, m of them are
flushed at the crossing. -/
theorem emptyBufferEncode : Obligations.EmptyBufferEncode := by
  rintro base columns lead ob rfl rfl
  refine ⟨rfl, fun henc hlead => ?within, fun henc m hlead hm1 hm3 => ?across⟩
  case within =>
    rw [ihexEncode_nil, started_of_lead_le henc.1 hlead]
    exact ⟨_, rfl⟩
  case across =>
    have hfits : base.toNat + 4 ≤ 2 ^ 32 := henc.2.2
    have hm : m < (sizePrefix 0).length := Nat.lt_succ_of_le hm3
    have hboundary : base.toNat + m = base.toNat - base.toNat % 0x10000 + 0x10000 := by omega
    have hnext : BitVec.ofNat 32 (base.toNat + m) =
        BitVec.ofNat 32 (base.toNat - base.toNat % 0x10000) + 0x10000 := by
      rw [hboundary, BitVec.ofNat_add]
      rfl
    rw [ihexEncode_nil, started_of_lead_eq henc.1 hfits hlead hm, ← hnext]
    obtain rfl | rfl | rfl : m = 1 ∨ m = 2 ∨ m = 3 := by omega
    · exact ⟨_, _, rfl⟩
    · exact ⟨_, _, rfl⟩
    · exact ⟨_, _, rfl⟩

end Sys2Proof.Proofs.WholeEncode
end
